-- ==== Sys2Proof/Config.lean ====
section
/-! DEFINITION. The engine's parameters (00_scope.md R6). The widths that shape types are
constants (the types of Word.lean spell them as numerals); the rest are the fields of the record `Config`, which every lookup and every update takes
as an argument, so that a statement can be made for the engine's own values or for all values.
The engine's own record is `Sys2Proof.Machine.config` (Machine/Params.lean). -/

namespace Sys2Proof

/-- `PC_W`: width of the branch address operand (R6). -/
abbrev Config.pcW : Nat := 32

/-- `HIST_LEN`: bits of GHR (R6, R28). -/
abbrev Config.histLen : Nat := 21

/-- `LOCAL_HIST_LEN`: bits of each BHT entry (R6, R29). -/
abbrev Config.localHistLen : Nat := 21

/-- Bits that hold one saturating counter (R21, R87). -/
abbrev Config.ctrW : Nat := 2

/-- Bits of the `cls` field, BP's `opcodeClass` (R81, D3). -/
abbrev Config.clsW : Nat := 4

/-- Bits of a command word (R81). -/
abbrev Config.cwW : Nat := 72

/-- One of the two fields cut by `CONSTRUCTV`: the low one `v1`, the next-higher one `v2` (R120). -/
inductive Field where
  | v1
  | v2
deriving DecidableEq, Repr

/-- A role assignment: which field is the argument `a`, `b`, `c` of `MAPINDEX` (R6, R121). -/
structure Role where
  a : Field
  b : Field
  c : Field
deriving DecidableEq, Repr

/-- The parameters of R6 that shape no type. -/
structure Config where
  /-- `CTR_MAX`, largest pattern or bimodal counter. -/
  ctrMax : Nat
  /-- `TCTR_MAX`, largest tournament counter. -/
  tctrMax : Nat
  /-- `BIM_IDX_LEN` -/
  bimIdxLen : Nat
  /-- `PHT_IDX_LEN`: each gskew bank has `2 ^ PHT_IDX_LEN` entries. -/
  phtIdxLen : Nat
  /-- `LOCAL_PHT_IDX_LEN`: each pskew bank has `2 ^ LOCAL_PHT_IDX_LEN` entries. -/
  localPhtIdxLen : Nat
  /-- `T1_IDX_LEN` -/
  t1IdxLen : Nat
  /-- `T2_IDX_LEN` -/
  t2IdxLen : Nat
  /-- `BHT_IDX_LEN` -/
  bhtIdxLen : Nat
  /-- `CTR_INIT`, reset value of every pattern and bimodal counter. -/
  ctrInit : BitVec 2
  /-- `T1_INIT` -/
  t1Init : BitVec 2
  /-- `T2_INIT` -/
  t2Init : BitVec 2
  /-- `ROLE_B1`: bank 1 of gskew and of pskew. -/
  roleB1 : Role
  /-- `ROLE_B2`: bank 2 of gskew and of pskew. -/
  roleB2 : Role
  /-- `ROLE_T1`: the tournament-1 index. -/
  roleT1 : Role
deriving DecidableEq, Repr

/-- `CTR_THRESH = CTR_MAX div 2` (R6). -/
def Config.ctrThresh (c : Config) : Nat := c.ctrMax / 2

/-- `TCTR_THRESH = TCTR_MAX div 2` (R6). -/
def Config.tctrThresh (c : Config) : Nat := c.tctrMax / 2

/-- Bits of all counter tables together (R8, R39). -/
def Config.counterBits (c : Config) : Nat :=
  (2 ^ c.bimIdxLen + 2 * 2 ^ c.phtIdxLen + 2 * 2 ^ c.localPhtIdxLen + 2 ^ c.t1IdxLen
    + 2 ^ c.t2IdxLen) * Config.ctrW

/-- Bits of the whole state: counters, BHT and GHR (R8, R39). -/
def Config.stateBits (c : Config) : Nat :=
  c.counterBits + 2 ^ c.bhtIdxLen * Config.localHistLen + Config.histLen

end Sys2Proof
end

