-- ==== Sys2Proof/Word.lean ====
section
/-! DEFINITION. The engine's value types. Every value is an unsigned integer of a stated width, bit 0
least significant (00_scope.md R12, 40_counters_and_hash.md R123). A direction is a `Bool`, `true` for
taken (30_encoding.md R85, R88). -/

namespace Sys2Proof

/-- A 32-bit address (`PC_W`), taken exactly as given: no alignment, no shift (R56, R84). -/
abbrev Addr := BitVec 32

/-- A stored saturating counter, its unsigned binary value in two bits (R87). -/
abbrev Counter := BitVec 2

/-- The global history, `HIST_LEN` = 21 bits, newest outcome in bit 0 (R28). -/
abbrev History := BitVec 21

/-- One local history, `LOCAL_HIST_LEN` = 21 bits, newest outcome in bit 0 (R29). -/
abbrev LocalHistory := BitVec 21

/-- The uninterpreted `opcodeClass` operand of TRACK (R81). -/
abbrev OpClass := BitVec 4

/-- A command word `CW[71:0]` (R81). -/
abbrev CmdWord := BitVec 72

/-- A direction as a bit: 1 = taken (R85). -/
def dirBit (d : Bool) : BitVec 1 := BitVec.ofBool d

end Sys2Proof
end

