-- ==== Sys2Proof/Syntax.lean ====
section
/-! DEFINITION. The four commands of the engine, with the operands BP's entry points give them
(30_encoding.md R80). `tgt` of UPDATE and all operands of TRACK are carried and never read
(R83, 43_update.md R191, 44_track_and_reset.md R210). -/

namespace Sys2Proof

/-- A command (R80): one constructor per row of the opcode table. -/
inductive Instr where
  /-- `trackOtherInstruction(PC, opcodeClass, branchTarget)` -/
  | track (pc : Addr) (cls : OpClass) (tgt : Addr)
  /-- `predict(PC)` -/
  | predict (pc : Addr)
  /-- `update(PC, resolvedDirection, predictedDirection, branchTarget)` -/
  | update (pc : Addr) (rd : Bool) (pd : Bool) (tgt : Addr)
  /-- `construct()` -/
  | reset
deriving DecidableEq, Repr

end Sys2Proof
end

