-- ==== Sys2Proof/WellFormed.lean ====
section
/-! DEFINITION. Well-formedness. The operand types carry the widths of 30_encoding.md R81, and no value
of an operand is illegal or reserved (R82, R222), so a command has nothing further to check. The
parameters do: `Config.wf` is 00_scope.md R7. -/

namespace Sys2Proof

/-- Every command is well formed: any address, any directions, any class (R56, R83, R222). -/
def Instr.wf : Instr → Bool
  | .track _ _ _ => true
  | .predict _ => true
  | .update _ _ _ _ => true
  | .reset => true

/-- The constraints on the parameters (R7 (b), (c), (d)), and that a counter's range is positive (R110)
and fits the two bits that hold it (R21, R24). R7 (a), every table size a power of two, holds by
construction: a size is `2 ^ idxLen`. (c) carries (b) and (d) over to the pskew banks. -/
def Config.wf (c : Config) : Bool :=
  decide (2 ≤ c.phtIdxLen) && decide (2 ≤ c.t1IdxLen) && decide (c.localPhtIdxLen = c.phtIdxLen)
    && decide (2 * c.phtIdxLen ≤ Config.pcW + Config.histLen)
    && decide (2 * c.t1IdxLen ≤ Config.pcW + Config.histLen)
    && decide (0 < c.ctrMax) && decide (c.ctrMax < 2 ^ Config.ctrW)
    && decide (0 < c.tctrMax) && decide (c.tctrMax < 2 ^ Config.ctrW)

end Sys2Proof
end

