-- ==== Sys2Proof/Decode.lean ====
section
/-! DEFINITION. The command word (30_encoding.md R81 to R84): the decoder, total on all 2^72 words
(R82, R222), and after it the encoder. The layout and the opcode numbers are the spec's own choice
(92_eei_decisions.md D2 to D4; log entry 4). -/

namespace Sys2Proof

/-- `CW[1:0]`, which entry point. -/
def opField (w : CmdWord) : BitVec 2 := w.extractLsb' 0 2

/-- `CW[33:2]`. -/
def pcField (w : CmdWord) : Addr := w.extractLsb' 2 32

/-- `CW[34]`, the resolved direction. -/
def rdField (w : CmdWord) : Bool := w.getLsbD 34

/-- `CW[35]`, the direction the host says was predicted. -/
def pdField (w : CmdWord) : Bool := w.getLsbD 35

/-- `CW[67:36]`. -/
def tgtField (w : CmdWord) : Addr := w.extractLsb' 36 32

/-- `CW[71:68]`. -/
def clsField (w : CmdWord) : OpClass := w.extractLsb' 68 4

/-- The command a word stands for (R82). All four opcodes are assigned, so none is refused; a field the
command does not use is not looked at (R83). -/
def decode (w : CmdWord) : Instr :=
  if opField w = 0b00#2 then .track (pcField w) (clsField w) (tgtField w)
  else if opField w = 0b01#2 then .predict (pcField w)
  else if opField w = 0b10#2 then .update (pcField w) (rdField w) (pdField w) (tgtField w)
  else .reset

/-- The instruction read from a word of `nbits` bits given as a number, bit 0 least significant. A
command word has 72 bits and there is no other length (R89): that a longer word is refused and a shorter
one has zeros above is the model's choice (DESIGN CHOICE, log entry 4). -/
def decodeTableWord (nbits w : Nat) : Option Instr :=
  if nbits ≤ 72 then some (decode (BitVec.ofNat 72 (w % 2 ^ nbits))) else none

/-- A command word from its six fields, each in the place R81 gives it. -/
def commandWord (op : BitVec 2) (pc : Addr) (rd pd : Bool) (tgt : Addr) (cls : OpClass) : CmdWord :=
  cls ++ tgt ++ dirBit pd ++ dirBit rd ++ pc ++ op

/-- The word of a command. A field the command does not use is encoded as 0 (R92). -/
def encode : Instr → CmdWord
  | .track pc cls tgt => commandWord 0b00#2 pc false false tgt cls
  | .predict pc => commandWord 0b01#2 pc false false 0 0
  | .update pc rd pd tgt => commandWord 0b10#2 pc rd pd tgt 0
  | .reset => commandWord 0b11#2 0 false false 0 0

end Sys2Proof
end

