-- ==== Sys2Proof/Machine/State.lean ====
section
/-! DEFINITION. The machine's state as plain data: the engine's nine elements (10_state.md R20), empty
before the first RESET (R38), and the two sides of its port (30_encoding.md R90): what the host
presents in the coming cycles and what the engine answered in the last one. -/

namespace Sys2Proof.Machine

/-- A table of `w`-bit entries: its entries that differ from the table's reset value, by strictly rising
index. An index not listed holds the reset value (R51: "or the reset value if no UPDATE wrote it"). -/
abbrev Table (w : Nat) := List (Nat × BitVec w)

/-- The names of the seven counter tables (R20). -/
inductive Tbl where
  | bim
  | gb1
  | gb2
  | pb1
  | pb2
  | t1
  | t2
deriving DecidableEq, Repr

/-- The engine's nine state elements and nothing else (R20, R31 to R35). -/
structure Engine where
  /-- bimodal table (R21) -/
  bim : Table 2
  /-- gskew bank 1 (R22) -/
  gb1 : Table 2
  /-- gskew bank 2 (R22) -/
  gb2 : Table 2
  /-- pskew bank 1 (R23) -/
  pb1 : Table 2
  /-- pskew bank 2 (R23) -/
  pb2 : Table 2
  /-- tournament-1 table (R24) -/
  t1 : Table 2
  /-- tournament-2 table (R25) -/
  t2 : Table 2
  /-- local-history table (R29) -/
  bht : Table 21
  /-- global history register (R28) -/
  ghr : History
deriving DecidableEq, Repr

/-- The inputs of one clock cycle (R90). -/
structure PortIn where
  rst : Bool
  cmdValid : Bool
  cmd : CmdWord
deriving DecidableEq, Repr

/-- The machine: the engine, and the host's side of the port. -/
structure State where
  /-- `none` before the first RESET, when no element has a value (R38, I5). -/
  engine : Option Engine
  /-- What the host presents, cycle by cycle, the next cycle first. When the list is used up the host
  presents nothing (R252). The model's own field (log entry 2). -/
  input : List PortIn
  /-- The response outputs of the last cycle: `some taken` is `resp_valid = 1` and `resp_taken = taken`,
  `none` is both 0 (R86, R90). -/
  resp : Option Bool
deriving DecidableEq, Repr

/-- Why the engine faults: never. No command, operand or state raises anything (60_exceptions.md R220,
R221, R234), so the type has no constructor, and no step answers a fault. Safe. -/
inductive Fault where
deriving DecidableEq, Repr

/-- Why the model gives a step no meaning. -/
inductive Refusal where
  /-- Raised by `exec` for a command that has no meaning yet: no arm does. Safe. -/
  | notModelled (mnemonic : String)
  /-- Raised by PREDICT and UPDATE before the first RESET: the content they would read is unspecified
  and a model "refuses them" (70_reset_and_hazards.md R242, 10_state.md R38). Safe. -/
  | beforeFirstReset
deriving DecidableEq, Repr

/-- Every table at its reset value and both histories zero (R37): no entry is listed. -/
def Engine.reset : Engine :=
  { bim := [], gb1 := [], gb2 := [], pb1 := [], pb2 := [], t1 := [], t2 := [], bht := [], ghr := 0 }

/-- The machine right after RESET (R37, R211), with no command waiting and nothing answered. -/
def State.reset : State := { engine := some Engine.reset, input := [], resp := none }

/-- The machine after power-on, before the first RESET (R38): no element has a value. -/
def State.powerOn : State := { engine := none, input := [], resp := none }

end Sys2Proof.Machine
end

