-- ==== Sys2Proof/Machine/Params.lean ====
section
/-! DEFINITION. The engine's parameter values (00_scope.md R6). -/

namespace Sys2Proof.Machine

/-- The values of R6. `ctrInit`, `t1Init`, `t2Init` and the three roles are the spec's own decisions
(92_eei_decisions.md D10 to D15; log entries 5 and 6), the rest BP's numbers. -/
def config : Config where
  ctrMax := 3
  tctrMax := 3
  bimIdxLen := 15
  phtIdxLen := 15
  localPhtIdxLen := 15
  t1IdxLen := 15
  t2IdxLen := 14
  bhtIdxLen := 12
  ctrInit := 2
  t1Init := 2
  t2Init := 2
  roleB1 := { a := .v1, b := .v2, c := .v2 }
  roleB2 := { a := .v1, b := .v2, c := .v1 }
  roleT1 := { a := .v1, b := .v2, c := .v2 }

end Sys2Proof.Machine
end

