-- ==== Sys2Proof/Machine/Ops.lean ====
section
/-! DEFINITION. The named operations every command is built from: reading and writing a table
(20_memory.md R51, R52), the counter and history arithmetic (40_counters_and_hash.md R110 to R112,
R115), and what a command does to the machine around the engine. There is no exception to take and no
return from one (60_exceptions.md R220, R225, R226), so there is no operation for either. -/

namespace Sys2Proof.Machine

/-! ## Tables -/

/-- What entry `i` holds, in a table whose reset value is `d` (R51). -/
def Table.read {w : Nat} (d : BitVec w) : Table w → Nat → BitVec w
  | [], _ => d
  | (k, v) :: rest, i => if k = i then v else Table.read d rest i

/-- List entry `i` with value `v` before the first higher index. -/
def Table.insert {w : Nat} (i : Nat) (v : BitVec w) : Table w → Table w
  | [] => [(i, v)]
  | (k, u) :: rest => if i < k then (i, v) :: (k, u) :: rest else (k, u) :: Table.insert i v rest

/-- Replace the whole of entry `i` by `v` (R52). Writing the reset value unlists the entry, so that
tables with the same contents are the same list. -/
def Table.write {w : Nat} (d : BitVec w) (t : Table w) (i : Nat) (v : BitVec w) : Table w :=
  if v = d then t.filter (fun x => x.1 ≠ i)
  else Table.insert i v (t.filter (fun x => x.1 ≠ i))

/-- The canonical form of a table of `2 ^ n` entries with reset value `d`. -/
abbrev Table.Wf {w : Nat} (n : Nat) (d : BitVec w) (t : Table w) : Prop :=
  t.Pairwise (fun x y => x.1 < y.1) ∧ ∀ x ∈ t, x.1 < 2 ^ n ∧ x.2 ≠ d

/-- All counter tables, in the order of R20. -/
def Tbl.all : List Tbl := [.bim, .gb1, .gb2, .pb1, .pb2, .t1, .t2]

/-- The reset value of each counter table (R37). -/
def Tbl.init (c : Config) : Tbl → Counter
  | .bim => c.ctrInit
  | .gb1 => c.ctrInit
  | .gb2 => c.ctrInit
  | .pb1 => c.ctrInit
  | .pb2 => c.ctrInit
  | .t1 => c.t1Init
  | .t2 => c.t2Init

/-- The index length of each counter table: it has `2 ^ idxLen` entries (R20, R50). -/
def Tbl.idxLen (c : Config) : Tbl → Nat
  | .bim => c.bimIdxLen
  | .gb1 => c.phtIdxLen
  | .gb2 => c.phtIdxLen
  | .pb1 => c.localPhtIdxLen
  | .pb2 => c.localPhtIdxLen
  | .t1 => c.t1IdxLen
  | .t2 => c.t2IdxLen

/-- The table of a name. -/
def Engine.table (e : Engine) : Tbl → Table 2
  | .bim => e.bim
  | .gb1 => e.gb1
  | .gb2 => e.gb2
  | .pb1 => e.pb1
  | .pb2 => e.pb2
  | .t1 => e.t1
  | .t2 => e.t2

/-- Put a whole table in place of the one of that name. -/
def Engine.setTable (e : Engine) (T : Tbl) (t : Table 2) : Engine :=
  match T with
  | .bim => { e with bim := t }
  | .gb1 => { e with gb1 := t }
  | .gb2 => { e with gb2 := t }
  | .pb1 => { e with pb1 := t }
  | .pb2 => { e with pb2 := t }
  | .t1 => { e with t1 := t }
  | .t2 => { e with t2 := t }

/-- `TBL[i]` for a counter table (R51). -/
def Engine.read (c : Config) (e : Engine) (T : Tbl) (i : Nat) : Counter :=
  Table.read (T.init c) (e.table T) i

/-- `TBL[i] <- v` for a counter table (R52). -/
def Engine.write (c : Config) (e : Engine) (T : Tbl) (i : Nat) (v : Counter) : Engine :=
  e.setTable T (Table.write (T.init c) (e.table T) i v)

/-- `BHT[i]` (R51); the reset value is 0 (R37). -/
def Engine.readBht (e : Engine) (i : Nat) : LocalHistory := Table.read 0 e.bht i

/-- `BHT[i] <- v` (R52). -/
def Engine.writeBht (e : Engine) (i : Nat) (v : LocalHistory) : Engine :=
  { e with bht := Table.write 0 e.bht i v }

/-- The canonical form of the whole engine: every table in its own. -/
abbrev Engine.Wf (c : Config) (e : Engine) : Prop :=
  (∀ T ∈ Tbl.all, Table.Wf (T.idxLen c) (T.init c) (e.table T)) ∧ Table.Wf c.bhtIdxLen 0 e.bht

/-- The canonical form of the machine's memory, which is the engine's tables; before the first RESET
there is none. -/
abbrev State.Wf (s : State) : Prop := ∀ e ∈ s.engine, Engine.Wf config e

/-! ## Counters and histories -/

/-- `SAT_INC` (R110). -/
def satInc (c max : Nat) : Nat := min (c + 1) max

/-- `SAT_DEC` (R111): subtraction of naturals stops at 0. -/
def satDec (c : Nat) : Nat := c - 1

/-- `PUSH`: one step of a pattern or bimodal counter toward `dir` (R112). -/
def push (c : Config) (k : Counter) (dir : Bool) : Counter :=
  BitVec.ofNat 2 (if dir then satInc k.toNat c.ctrMax else satDec k.toNat)

/-- One step of a tournament counter: down, toward the first rival, when that was the correct one, else
up (43_update.md R183, R184). -/
def tournamentMove (c : Config) (k : Counter) (firstCorrect : Bool) : Counter :=
  BitVec.ofNat 2 (if firstCorrect then satDec k.toNat else satInc k.toNat c.tctrMax)

/-- `SHIFT_IN` (R115): shift left by one, put `dir` in bit 0, drop the top bit. -/
def shiftIn {len : Nat} (h : BitVec len) (dir : Bool) : BitVec len :=
  (h <<< 1) ||| (dirBit dir).setWidth len

/-! ## The machine around the engine -/

/-- Run a command that reads the engine's content. Before the first RESET there is none to read, and the
command is refused (R242). -/
def State.onEngine (s : State) (f : Engine → State) : Host.Outcome State Fault Refusal :=
  match s.engine with
  | none => .refused .beforeFirstReset
  | some e => .next (f e)

/-- Answer one bit (R86). -/
def State.answer (s : State) (taken : Bool) : State := { s with resp := some taken }

/-- Answer nothing: `resp_valid = 0` and `resp_taken = 0` (R86, R90). -/
def State.silent (s : State) : State := { s with resp := none }

/-- Put an engine in place. -/
def State.setEngine (s : State) (e : Engine) : State := { s with engine := some e }

/-- The output `resp_valid` (R90). -/
def State.respValid (s : State) : Bool := s.resp.isSome

/-- The output `resp_taken` (R90), 0 whenever `resp_valid` is 0. -/
def State.respTaken (s : State) : Bool := s.resp.getD false

end Sys2Proof.Machine
end

