-- ==== Sys2Proof/Machine/Operands.lean ====
section
/-! DEFINITION. The index computations, the only "addressing modes" of the engine (30_encoding.md R94):
the skewed indexer (40_counters_and_hash.md R116 to R122) and the eight indices a command uses
(41_predictor_banks.md R140 to R148). No index computation changes an operand. -/

namespace Sys2Proof.Machine

/-! ## The skewed indexer -/

/-- `H(a, n)` (R116): a right rotate whose new top bit is the XOR of the old top and bottom bits. The
formula is the spec's reading (92_eei_decisions.md D16; log entry 7). -/
def hashH {n : Nat} (a : BitVec n) : BitVec n :=
  (a >>> 1) ||| ((dirBit (a.getLsbD (n - 1) ^^ a.getLsbD 0)).setWidth n <<< (n - 1))

/-- `HINV(b, n)` (R117). -/
def hashHinv {n : Nat} (b : BitVec n) : BitVec n :=
  (b <<< 1) ||| (dirBit (b.getLsbD (n - 1) ^^ b.getLsbD (n - 2))).setWidth n

/-- `MAPINDEX(a, b, c, n)` (R119). -/
def mapIndex {n : Nat} (a b c : BitVec n) : BitVec n := hashH a ^^^ hashHinv b ^^^ c

/-- The field a role names. -/
def pickField {n : Nat} (f : Field) (v1 v2 : BitVec n) : BitVec n :=
  match f with
  | .v1 => v1
  | .v2 => v2

/-- `MAPINDEX` on two fields under a role assignment (R121, R122). -/
def roleIndex {n : Nat} (r : Role) (v1 v2 : BitVec n) : BitVec n :=
  mapIndex (pickField r.a v1 v2) (pickField r.b v1 v2) (pickField r.c v1 v2)

/-- The wide value of `CONSTRUCTV`: the address above the low `histLen` bits of the history (R120). -/
def wideVector {w : Nat} (pc : Addr) (hist : BitVec w) (histLen : Nat) :
    BitVec (32 + histLen) :=
  pc ++ hist.setWidth histLen

/-- The field `v1` of `CONSTRUCTV(pc, hist, histLen, idxLen)`: the low one (R120). -/
def vectorLow {w : Nat} (pc : Addr) (hist : BitVec w) (histLen idxLen : Nat) : BitVec idxLen :=
  (wideVector pc hist histLen).extractLsb' 0 idxLen

/-- The field `v2` of `CONSTRUCTV(pc, hist, histLen, idxLen)`: the next-higher one (R120). -/
def vectorHigh {w : Nat} (pc : Addr) (hist : BitVec w) (histLen idxLen : Nat) : BitVec idxLen :=
  (wideVector pc hist histLen).extractLsb' idxLen idxLen

/-- The index a role assignment gives for an address and a history, at an index length (R121, R122). -/
def skewIndex {w : Nat} (r : Role) (pc : Addr) (hist : BitVec w) (histLen idxLen : Nat) : Nat :=
  (roleIndex r (vectorLow pc hist histLen idxLen) (vectorHigh pc hist histLen idxLen)).toNat

/-! ## The indices of one address -/

/-- `bi` (R140). -/
def bimodalIndex (c : Config) (pc : Addr) : Nat := pc.toNat % 2 ^ c.bimIdxLen

/-- `gi1` (R141), with `HIST_LEN` = 21. -/
def gskewIndex1 (c : Config) (pc : Addr) (ghr : History) : Nat :=
  skewIndex c.roleB1 pc ghr 21 c.phtIdxLen

/-- `gi2` (R141). -/
def gskewIndex2 (c : Config) (pc : Addr) (ghr : History) : Nat :=
  skewIndex c.roleB2 pc ghr 21 c.phtIdxLen

/-- `li` (R143). -/
def localIndex (c : Config) (pc : Addr) : Nat := pc.toNat % 2 ^ c.bhtIdxLen

/-- `pi1`, with `LOCAL_HIST_LEN` = 21, at the index length `L` of the command that looks up (R144, R192). -/
def pskewIndex1 (c : Config) (pc : Addr) (lh : LocalHistory) (L : Nat) : Nat :=
  skewIndex c.roleB1 pc lh 21 L

/-- `pi2` (R144, R192). -/
def pskewIndex2 (c : Config) (pc : Addr) (lh : LocalHistory) (L : Nat) : Nat :=
  skewIndex c.roleB2 pc lh 21 L

/-- `t1i` (R146). -/
def tournament1Index (c : Config) (pc : Addr) (ghr : History) : Nat :=
  skewIndex c.roleT1 pc ghr 21 c.t1IdxLen

/-- `t2i` (R148). -/
def tournament2Index (c : Config) (pc : Addr) : Nat := pc.toNat % 2 ^ c.t2IdxLen

end Sys2Proof.Machine
end

