-- ==== Sys2Proof/Machine/Flags.lean ====
section
/-! DEFINITION. The engine keeps no flags (10_state.md R33). What stands here are the one-bit values
computed inside a command and not kept: the vote of a counter, a majority, and the selection flag of a
tournament counter (40_counters_and_hash.md R113, R114; 10_state.md R26, R27). -/

namespace Sys2Proof.Machine

/-- `VOTE` (R113): taken when the counter is above the threshold. -/
def vote (c : Config) (k : Counter) : Bool := decide (c.ctrThresh < k.toNat)

/-- `MAJ3` (R114): taken when at least two of three vote taken. -/
def maj3 (x y z : Bool) : Bool := decide (2 ≤ x.toNat + y.toNat + z.toNat)

/-- Whether a tournament counter selects its first rival: gskew for `T1`, the composite for `T2`
(R27, 41_predictor_banks.md R147, R149). -/
def selectsFirst (c : Config) (k : Counter) : Bool := decide (k.toNat ≤ c.tctrThresh)

end Sys2Proof.Machine
end

