-- ==== Sys2Proof/Machine/Lookup.lean ====
section
/-! DEFINITION. The five lookups collected in one record (41_predictor_banks.md R140 to R150). -/

namespace Sys2Proof.Machine

/-- The record `LOOKUP(S, pc, L)` (R150), with the spec's names. -/
structure Lookup where
  bi : Nat
  gi1 : Nat
  gi2 : Nat
  li : Nat
  pi1 : Nat
  pi2 : Nat
  t1i : Nat
  t2i : Nat
  lh : LocalHistory
  cb : Counter
  cg1 : Counter
  cg2 : Counter
  cp1 : Counter
  cp2 : Counter
  ct1 : Counter
  ct2 : Counter
  bim : Bool
  vg1 : Bool
  vg2 : Bool
  vp1 : Bool
  vp2 : Bool
  gskew : Bool
  pskew : Bool
  selg : Bool
  comp : Bool
  sel2bc : Bool
  final : Bool
deriving DecidableEq, Repr

/-- The entry of each counter table that the address reaches (20_memory.md R54). -/
def Lookup.entry (r : Lookup) : Tbl → Nat
  | .bim => r.bi
  | .gb1 => r.gi1
  | .gb2 => r.gi2
  | .pb1 => r.pi1
  | .pb2 => r.pi2
  | .t1 => r.t1i
  | .t2 => r.t2i

/-- The counter value the lookup read in each table. -/
def Lookup.counter (r : Lookup) : Tbl → Counter
  | .bim => r.cb
  | .gb1 => r.cg1
  | .gb2 => r.cg2
  | .pb1 => r.cp1
  | .pb2 => r.cp2
  | .t1 => r.ct1
  | .t2 => r.ct2

/-- The subpredictions and selections from the seven counters one address reaches: R140 (bimodal vote),
R142 and R145 (majorities), R147 (composite), R149 (final). -/
def Lookup.ofCounters (c : Config) (bi gi1 gi2 li pi1 pi2 t1i t2i : Nat) (lh : LocalHistory)
    (cb cg1 cg2 cp1 cp2 ct1 ct2 : Counter) : Lookup :=
  let bim := vote c cb
  let gskew := maj3 (vote c cg1) (vote c cg2) bim
  let pskew := maj3 (vote c cp1) (vote c cp2) bim
  let selg := selectsFirst c ct1
  let comp := if selg then gskew else bim
  let sel2bc := selectsFirst c ct2
  { bi, gi1, gi2, li, pi1, pi2, t1i, t2i, lh, cb, cg1, cg2, cp1, cp2, ct1, ct2, bim,
    vg1 := vote c cg1, vg2 := vote c cg2, vp1 := vote c cp1, vp2 := vote c cp2,
    gskew, pskew, selg, comp, sel2bc, final := if sel2bc then comp else pskew }

/-- `LOOKUP(S, pc, L)` (R150): reads the engine, writes nothing. `L` is the index length of the pskew
banks, `LOCAL_PHT_IDX_LEN` for PREDICT and `PHT_IDX_LEN` for UPDATE (R144, R192). -/
def lookup (c : Config) (e : Engine) (pc : Addr) (L : Nat) : Lookup :=
  let bi := bimodalIndex c pc
  let gi1 := gskewIndex1 c pc e.ghr
  let gi2 := gskewIndex2 c pc e.ghr
  let li := localIndex c pc
  let lh := e.readBht li
  let pi1 := pskewIndex1 c pc lh L
  let pi2 := pskewIndex2 c pc lh L
  let t1i := tournament1Index c pc e.ghr
  let t2i := tournament2Index c pc
  Lookup.ofCounters c bi gi1 gi2 li pi1 pi2 t1i t2i lh
    (e.read c .bim bi) (e.read c .gb1 gi1) (e.read c .gb2 gi2) (e.read c .pb1 pi1) (e.read c .pb2 pi2)
    (e.read c .t1 t1i) (e.read c .t2 t2i)

end Sys2Proof.Machine
end

