-- ==== Sys2Proof/Machine/Predictor.lean ====
section
/-! DEFINITION. The predictor commands PREDICT (42_predict.md R170) and UPDATE (43_update.md R180). -/

namespace Sys2Proof.Machine

/-! ## PREDICT -/

/-- The answer of PREDICT on an engine: the final prediction of the lookup made with
`LOCAL_PHT_IDX_LEN` (R170). -/
def prediction (c : Config) (e : Engine) (pc : Addr) : Bool := (lookup c e pc c.localPhtIdxLen).final

/-- PREDICT (R170): answers one bit, writes nothing, keeps no record of having answered (R173). -/
def execPredict (pc : Addr) (s : State) : Host.Outcome State Fault Refusal :=
  s.onEngine fun e => s.answer (prediction config e pc)

/-! ## The seven steps of UPDATE. Each reads only the snapshot `r` (R181) and writes its own tables. -/

/-- Step 1, tournament selector 2 (R183): when the composite and pskew disagree, move toward the one
that was right. -/
def updateT2 (c : Config) (r : Lookup) (rd : Bool) (e : Engine) : Engine :=
  if r.comp != r.pskew then e.write c .t2 r.t2i (tournamentMove c r.ct2 (r.comp == rd)) else e

/-- Step 2, tournament selector 1 (R184): when the composite was selected and gskew and bimodal
disagree, move toward the one that was right. -/
def updateT1 (c : Config) (r : Lookup) (rd : Bool) (e : Engine) : Engine :=
  if r.sel2bc && (r.gskew != r.bim) then e.write c .t1 r.t1i (tournamentMove c r.ct1 (r.gskew == rd))
  else e

/-- Push one bank's counter when `go` holds. -/
def pushBank (c : Config) (T : Tbl) (i : Nat) (k : Counter) (rd go : Bool) (e : Engine) : Engine :=
  if go then e.write c T i (push c k rd) else e

/-- The rule both bank pairs share (R185, R186) once their gate is open: when the majority was wrong
push both banks, else only a bank whose own vote was right. -/
def trainBank (c : Config) (T : Tbl) (i : Nat) (k : Counter) (ownVote majority rd : Bool) (e : Engine) :
    Engine :=
  pushBank c T i k rd (majority != rd || ownVote == rd) e

/-- Step 3, gskew banks (R185): gated by `wrong`, or the composite selected and gskew within it. -/
def updateGskew (c : Config) (r : Lookup) (rd wrong : Bool) (e : Engine) : Engine :=
  if wrong || (r.sel2bc && r.selg) then
    trainBank c .gb2 r.gi2 r.cg2 r.vg2 r.gskew rd (trainBank c .gb1 r.gi1 r.cg1 r.vg1 r.gskew rd e)
  else e

/-- Step 4, pskew banks (R186): gated by `wrong`, or the composite not selected. -/
def updatePskew (c : Config) (r : Lookup) (rd wrong : Bool) (e : Engine) : Engine :=
  if wrong || !r.sel2bc then
    trainBank c .pb2 r.pi2 r.cp2 r.vp2 r.pskew rd (trainBank c .pb1 r.pi1 r.cp1 r.vp1 r.pskew rd e)
  else e

/-- Step 5, bimodal (R187): always when `wrong`, else only when its own vote was right. -/
def updateBimodal (c : Config) (r : Lookup) (rd wrong : Bool) (e : Engine) : Engine :=
  pushBank c .bim r.bi r.cb rd (wrong || r.bim == rd) e

/-- Step 6, global history (R188), unconditional. -/
def updateGhr (rd : Bool) (e : Engine) : Engine := { e with ghr := shiftIn e.ghr rd }

/-- Step 7, local history (R189), unconditional, from the snapshot's `lh`. -/
def updateBht (r : Lookup) (rd : Bool) (e : Engine) : Engine := e.writeBht r.li (shiftIn r.lh rd)

/-- The whole of UPDATE on an engine (R180): the snapshot is the lookup on the pre-update engine with
`PHT_IDX_LEN` (R181, R192), `wrong` compares the two operands (R182), then steps 1 to 7 in BP's
order. -/
def updateEngine (c : Config) (e : Engine) (pc : Addr) (rd pd : Bool) : Engine :=
  let r := lookup c e pc c.phtIdxLen
  let wrong := pd != rd
  let e1 := updateT2 c r rd e
  let e2 := updateT1 c r rd e1
  let e3 := updateGskew c r rd wrong e2
  let e4 := updatePskew c r rd wrong e3
  let e5 := updateBimodal c r rd wrong e4
  let e6 := updateGhr rd e5
  updateBht r rd e6

/-- UPDATE (R180): the engine's new content, and no answer. `tgt` is accepted and unused (R191). The
host's contract is not checked (R195). -/
def execUpdate (pc : Addr) (rd pd : Bool) (_tgt : Addr) (s : State) :
    Host.Outcome State Fault Refusal :=
  s.onEngine fun e => s.silent.setEngine (updateEngine config e pc rd pd)

end Sys2Proof.Machine
end

