-- ==== Sys2Proof/Machine/System.lean ====
section
/-! DEFINITION. The system commands TRACK and RESET (44_track_and_reset.md R210, R211). Both read
nothing, so both have their effect before the first RESET as well (R242). -/

namespace Sys2Proof.Machine

/-- TRACK (R210): "nothing is read, nothing is written, nothing is answered". -/
def execTrack (_pc : Addr) (_cls : OpClass) (_tgt : Addr) (s : State) :
    Host.Outcome State Fault Refusal :=
  .next s.silent

/-- RESET (R211): every table entry at its reset value, both histories zero, whatever was there. -/
def execReset (s : State) : Host.Outcome State Fault Refusal :=
  .next (s.silent.setEngine Engine.reset)

end Sys2Proof.Machine
end

