-- ==== Sys2Proof/Machine/Dispatch.lean ====
section
/-! DEFINITION. One arm per command (30_encoding.md R80, R94). -/

namespace Sys2Proof.Machine

/-- What a command does to the machine. -/
def exec (i : Instr) (s : State) : Host.Outcome State Fault Refusal :=
  match i with
  | .track pc cls tgt => Sys2Proof.Machine.execTrack pc cls tgt s
  | .predict pc => Sys2Proof.Machine.execPredict pc s
  | .update pc rd pd tgt => Sys2Proof.Machine.execUpdate pc rd pd tgt s
  | .reset => Sys2Proof.Machine.execReset s

end Sys2Proof.Machine
end

