-- ==== Sys2Proof/Machine/Port.lean ====
section
/-! DEFINITION. The command port (30_encoding.md R90, R91): how the inputs of one clock cycle become a
command, and how the host's side moves on. -/

namespace Sys2Proof.Machine

/-- The command the inputs of one cycle stand for: `rst` is RESET and wins over a command, which is
then dropped (R90, R91, R224); without `cmd_valid` there is none. -/
def PortIn.command (p : PortIn) : Option Instr :=
  if p.rst then some .reset
  else if p.cmdValid then some (decode p.cmd)
  else none

/-- The command of the coming cycle. A host that has nothing more to present leaves the port idle
(R252). -/
def State.command (s : State) : Option Instr :=
  match s.input with
  | [] => none
  | p :: _ => p.command

/-- The machine with the coming cycle's inputs taken off the host's list. -/
def State.advance (s : State) : State := { s with input := s.input.tail }

/-- The inputs of a cycle that presents a command word (R90). -/
def PortIn.ofWord (w : CmdWord) : PortIn := { rst := false, cmdValid := true, cmd := w }

/-- The inputs of a cycle that presents a command, in its own encoding. -/
def PortIn.ofInstr (i : Instr) : PortIn := PortIn.ofWord (encode i)

/-- The machine with one more cycle's inputs put before those already waiting. -/
def State.present (s : State) (p : PortIn) : State := { s with input := p :: s.input }

/-- The command word of `nbits` bits given as a number. A shorter word has zeros above. Of a number of more
than 72 bits the low 72 are kept: there is no such command word (R89), and the port has 72 wires (R90), so
what happens to the rest is the model's choice (DESIGN CHOICE, log entry 4). -/
def wordOfNat (nbits w : Nat) : CmdWord := BitVec.ofNat 72 (w % 2 ^ nbits)

end Sys2Proof.Machine
end

