-- ==== Sys2Proof/Machine/Step.lean ====
section
/-! DEFINITION. One step is one clock cycle of the port binding (30_encoding.md R90). -/

namespace Sys2Proof.Machine

/-- One cycle: the command on the port is performed whole; with none, the engine stays as it is and
answers nothing (R90). -/
def step (s : State) : Host.Outcome State Fault Refusal :=
  match s.command with
  | none => .next s.advance.silent
  | some i => exec i s.advance

/-- The machine with the command word `w` presented in the coming cycle; of a number of more than 72 bits,
its low 72 (DESIGN CHOICE, log entry 4). -/
def State.withFetchWord (s : State) (nbits w : Nat) : State :=
  s.present (PortIn.ofWord (wordOfNat nbits w))

end Sys2Proof.Machine
end

