-- ==== Sys2Proof/Machine/Branch.lean ====
section
/-! DEFINITION. The pseudo-command BRANCH (30_encoding.md R93), which has no encoding of its own: the host
issues PREDICT, carries the answer, and issues UPDATE with it (70_reset_and_hazards.md R245). -/

namespace Sys2Proof.Machine

/-- Go on from a next state; a stop stays a stop. -/
def andThen (o : Host.Outcome State Fault Refusal)
    (f : State → Host.Outcome State Fault Refusal) : Host.Outcome State Fault Refusal :=
  match o with
  | .next t => f t
  | .fault r => .fault r
  | .refused r => .refused r

/-- `BRANCH pc, rd, tgt`: PREDICT `pc`, then UPDATE with the answer as `pd` (R93). -/
def execBranch (pc : Addr) (rd : Bool) (tgt : Addr) (s : State) : Host.Outcome State Fault Refusal :=
  andThen (exec (.predict pc) s) fun t => exec (.update pc rd t.respTaken tgt) t

/-- The same branch `n` times in a row. -/
def execBranches (pc : Addr) (rd : Bool) (tgt : Addr) : Nat → State → Host.Outcome State Fault Refusal
  | 0, s => .next s
  | n + 1, s => andThen (execBranch pc rd tgt s) (execBranches pc rd tgt n)

/-- A run: a finite list of commands applied in order (R250, R252). -/
def execAll : List Instr → State → Host.Outcome State Fault Refusal
  | [], s => .next s
  | i :: rest, s => andThen (exec i s) (execAll rest)

end Sys2Proof.Machine
end

