-- ==== Sys2Proof/Machine/Text.lean ====
section
/-! DEFINITION. The text form of a command stream (30_encoding.md R92, R93), one line at a time. A line is
a list of characters, so that reading it is structural recursion. What R92 does not say (blanks are
spaces and tabs, mnemonics and T/N are capitals, a number too large for its field is refused, a line with
no command is allowed and does nothing) is log entry 9. -/

namespace Sys2Proof.Machine

/-- What one line says. -/
inductive TextLine where
  /-- no command: nothing, blanks only, or a comment with or without blanks before it (DESIGN CHOICE for
  the lines without a comment, log entry 9) -/
  | empty
  /-- one of the four commands -/
  | command (i : Instr)
  /-- the pseudo-command of R93 -/
  | branch (pc : Addr) (rd : Bool) (tgt : Addr)
deriving DecidableEq, Repr

/-- A blank inside a line. -/
def isBlank (ch : Char) : Bool := ch == ' ' || ch == '\t'

/-- The line before its comment: "`;` starts a comment" (R92). -/
def beforeComment (line : List Char) : List Char := line.takeWhile (fun ch => ch != ';')

/-- Without blanks at either end. -/
def trimBlanks (cs : List Char) : List Char :=
  ((cs.dropWhile isBlank).reverse.dropWhile isBlank).reverse

/-- The parts between commas. -/
def splitCommas : List Char → List (List Char)
  | [] => [[]]
  | ch :: rest =>
    if ch == ',' then [] :: splitCommas rest
    else
      match splitCommas rest with
      | [] => [[ch]]
      | part :: parts => (ch :: part) :: parts

/-- The operands after the mnemonic. -/
def textOperands (cs : List Char) : List (List Char) :=
  let body := trimBlanks cs
  if body.isEmpty then [] else (splitCommas body).map trimBlanks

/-- The value of a digit in base 16. -/
def digitValue (ch : Char) : Option Nat :=
  let n := ch.toNat
  if 48 ≤ n ∧ n ≤ 57 then some (n - 48)
  else if 65 ≤ n ∧ n ≤ 70 then some (n - 55)
  else if 97 ≤ n ∧ n ≤ 102 then some (n - 87)
  else none

/-- Digits in a base, most significant first, after a value already read. -/
def digitsValue (base : Nat) : Nat → List Char → Option Nat
  | acc, [] => some acc
  | acc, ch :: rest =>
    match digitValue ch with
    | none => none
    | some d => if d < base then digitsValue base (acc * base + d) rest else none

/-- "Numbers are hexadecimal with `0x` or decimal" (R92). -/
def textNumber : List Char → Option Nat
  | [] => none
  | ['0', 'x'] => none
  | '0' :: 'x' :: ds => digitsValue 16 0 ds
  | ds => digitsValue 10 0 ds

/-- A number that fits a field of `w` bits. -/
def textField (w : Nat) (cs : List Char) : Option (BitVec w) :=
  match textNumber cs with
  | none => none
  | some n => if n < 2 ^ w then some (BitVec.ofNat w n) else none

/-- "A direction is written `T` (1) or `N` (0)" (R92). -/
def textDirection : List Char → Option Bool
  | ['T'] => some true
  | ['N'] => some false
  | _ => none

/-- `TRACK pc [, cls [, tgt]]`: "cls and tgt default to 0" (R92). -/
def textTrack (ops : List (List Char)) : Option TextLine :=
  match ops with
  | [pc] => do return .command (.track (← textField 32 pc) 0 0)
  | [pc, cls] => do return .command (.track (← textField 32 pc) (← textField 4 cls) 0)
  | [pc, cls, tgt] => do
    return .command (.track (← textField 32 pc) (← textField 4 cls) (← textField 32 tgt))
  | _ => none

/-- `PREDICT pc` (R92). -/
def textPredict (ops : List (List Char)) : Option TextLine :=
  match ops with
  | [pc] => do return .command (.predict (← textField 32 pc))
  | _ => none

/-- `UPDATE pc, rd, pd [, tgt]`: "tgt defaults to 0" (R92). -/
def textUpdate (ops : List (List Char)) : Option TextLine :=
  match ops with
  | [pc, rd, pd] => do
    return .command (.update (← textField 32 pc) (← textDirection rd) (← textDirection pd) 0)
  | [pc, rd, pd, tgt] => do
    return .command
      (.update (← textField 32 pc) (← textDirection rd) (← textDirection pd) (← textField 32 tgt))
  | _ => none

/-- `RESET` (R92). -/
def textReset (ops : List (List Char)) : Option TextLine :=
  match ops with
  | [] => some (.command .reset)
  | _ => none

/-- `BRANCH pc, rd [, tgt]` (R93), an omitted `tgt` being 0 (R92). -/
def textBranch (ops : List (List Char)) : Option TextLine :=
  match ops with
  | [pc, rd] => do return .branch (← textField 32 pc) (← textDirection rd) 0
  | [pc, rd, tgt] => do return .branch (← textField 32 pc) (← textDirection rd) (← textField 32 tgt)
  | _ => none

/-- Read one line; none where it is not of a form R92 or R93 gives. R92 says "one command per line" and is
silent on a line with neither command nor comment: it is read as `.empty` (DESIGN CHOICE, log entry 9). -/
def readLine (line : List Char) : Option TextLine :=
  let body := trimBlanks (beforeComment line)
  let mnemonic := body.takeWhile (fun ch => !isBlank ch)
  let ops := textOperands (body.dropWhile (fun ch => !isBlank ch))
  if body.isEmpty then some .empty
  else if mnemonic = ['T', 'R', 'A', 'C', 'K'] then textTrack ops
  else if mnemonic = ['P', 'R', 'E', 'D', 'I', 'C', 'T'] then textPredict ops
  else if mnemonic = ['U', 'P', 'D', 'A', 'T', 'E'] then textUpdate ops
  else if mnemonic = ['R', 'E', 'S', 'E', 'T'] then textReset ops
  else if mnemonic = ['B', 'R', 'A', 'N', 'C', 'H'] then textBranch ops
  else none

/-- What the host does for one line. -/
def execLine : TextLine → State → Host.Outcome State Fault Refusal
  | .empty, s => .next s
  | .command i, s => exec i s
  | .branch pc rd tgt, s => execBranch pc rd tgt s

end Sys2Proof.Machine
end

