-- ==== Sys2Proof/Safety.lean ====
section
/-! DEFINITION. What a safe run is. The engine cannot fault (60_exceptions.md R220); the one stop is a
PREDICT or UPDATE before the first RESET (70_reset_and_hazards.md R242). The other duty of the host is
the sequencing contract (R245, R246), which the engine does not check: `watch` is the monitor outside
the engine that 60_exceptions.md R234 allows. -/

namespace Sys2Proof.Safety

open Sys2Proof.Machine

/-- The commands that read the engine's content and so need one RESET before them (R242, R243). -/
def needsReset : Instr → Bool
  | .track _ _ _ => false
  | .predict _ => true
  | .update _ _ _ _ => true
  | .reset => false

/-- A command the model gives a meaning in this state. -/
def Accepted (i : Instr) (s : State) : Prop := needsReset i = true → s.engine.isSome = true

/-- What the host owes: nothing, or the UPDATE of the branch whose PREDICT was answered. -/
inductive Pending where
  | idle
  | asked (pc : Addr) (taken : Bool)
deriving DecidableEq, Repr

/-- The monitor of the contract (R245, R246, R248). After a command and its answer, what the host owes
now; none when the command broke the contract. A repeated PREDICT of the same address and any TRACK may
stand before the UPDATE (R248); a PREDICT of another address may not (R246). RESET leaves nothing owed
(log entry 10). -/
def watch (m : Pending) (i : Instr) (answer : Option Bool) : Option Pending :=
  match i with
  | .track _ _ _ => some m
  | .reset => some .idle
  | .predict pc =>
    match m with
    | .idle => answer.map (Pending.asked pc)
    | .asked q _ => if q = pc then answer.map (Pending.asked pc) else none
  | .update pc _ pd _ =>
    match m with
    | .idle => none
    | .asked q d => if q = pc ∧ pd = d then some .idle else none

/-- The command stream, run from `s`, never stops and never breaks the contract. -/
def keepsContract : Pending → List Instr → State → Bool
  | _, [], _ => true
  | m, i :: rest, s =>
    match exec i s with
    | .fault _ => false
    | .refused _ => false
    | .next t =>
      match watch m i t.resp with
      | none => false
      | some m' => keepsContract m' rest t

/-- What the monitor remembers is true of the engine: the answer it holds is what the engine would answer
now (R247: "the indices, the sub-predictions and `pd = final` are those of the prediction being
corrected"). -/
def Agrees (m : Pending) (s : State) : Prop :=
  match m with
  | .idle => True
  | .asked pc d => ∃ e, s.engine = some e ∧ prediction config e pc = d

end Sys2Proof.Safety
end

