-- ==== Sys2Proof/Certificates/Slice0/Obligations.lean ====
section
/-! DEFINITION. The statements for the provers. Where a statement rests on a choice the spec marks as its
own, its docstring names the decision (92_eei_decisions.md) and the log entry. -/

open Sys2Proof Sys2Proof.Machine Sys2Proof.Safety

namespace Sys2Proof.Claims

/-- A stored counter's value after one `PUSH` toward `dir` (R110 to R112). -/
def pushed (k : Counter) (dir : Bool) : Nat := if dir then min (k.toNat + 1) 3 else k.toNat - 1

/-- The directions of the UPDATEs of a command stream, oldest first, whose address satisfies `p`. -/
def outcomes (p : Addr → Bool) : List Instr → List Bool
  | [] => []
  | .update pc rd _ _ :: rest => if p pc then rd :: outcomes p rest else outcomes p rest
  | .track _ _ _ :: rest => outcomes p rest
  | .predict _ :: rest => outcomes p rest
  | .reset :: rest => outcomes p rest

/-- Commands that write nothing (R36). -/
def writesNothing : Instr → Bool
  | .track _ _ _ => true
  | .predict _ => true
  | .update _ _ _ _ => false
  | .reset => false

/-- The seven steps of UPDATE over one snapshot, in BP's order (R180). -/
def updateSteps (c : Config) (r : Lookup) (rd wrong : Bool) : List (Engine → Engine) :=
  [updateT2 c r rd, updateT1 c r rd, updateGskew c r rd wrong, updatePskew c r rd wrong,
    updateBimodal c r rd wrong, updateGhr rd, updateBht r rd]

end Sys2Proof.Claims

open Sys2Proof.Claims

/-! ## Encoding -/

/-- Decoding the encoding of any command gives the command back, with every operand at every value. The
word's layout is the spec's own choice (D2, D3; log entry 4). -/
def Obligations.DecodeOfEncodeIsIdentity : Prop := ∀ i : Instr, decode (encode i) = i

/-- A word whose ignored bits are 0 is the encoding of the command it decodes to. Layout: D2 to D4, log
entry 4; the zeros are R92's. -/
def Obligations.EncodeOfDecodeIsIdentity : Prop :=
  ∀ w : CmdWord,
    (opField w = 0b00#2 → rdField w = false ∧ pdField w = false) →
    (opField w = 0b01#2 → w.toNat < 2 ^ 34) →
    (opField w = 0b10#2 → w.toNat < 2 ^ 68) →
    (opField w = 0b11#2 → w.toNat < 4) →
    encode (decode w) = w

/-- Where each operand stands in the word, said by division and remainder of the word as a number, and
the opcode numbers (D2, D3; log entry 4). -/
def Obligations.OperandsStandAtTheirBits : Prop :=
  ∀ w : CmdWord,
    let n := w.toNat
    let pc := BitVec.ofNat 32 (n / 2 ^ 2 % 2 ^ 32)
    let rd := decide (n / 2 ^ 34 % 2 = 1)
    let pd := decide (n / 2 ^ 35 % 2 = 1)
    let tgt := BitVec.ofNat 32 (n / 2 ^ 36 % 2 ^ 32)
    let cls := BitVec.ofNat 4 (n / 2 ^ 68)
    (n % 4 = 0 → decode w = .track pc cls tgt) ∧
    (n % 4 = 1 → decode w = .predict pc) ∧
    (n % 4 = 2 → decode w = .update pc rd pd tgt) ∧
    (n % 4 = 3 → decode w = .reset)

/-- A few of the words of 95_test_vectors.md V5 decode to the commands that section gives them. The word's
layout and opcode numbers are the spec's own choice (D2, D3; log entry 4). -/
def Obligations.TestVectorWordsDecode : Prop :=
  decode 0x000000000000000003#72 = .reset ∧
  decode 0x300400280001000800#72 = .track 0x00400200#32 3#4 0x00400280#32 ∧
  decode 0x000000000001000695#72 = .predict 0x004001A5#32 ∧
  decode 0x000000000801000696#72 = .update 0x004001A5#32 false true 0#32 ∧
  decode 0x0DEADBEEFC01000696#72 = .update 0x004001A5#32 true true 0xDEADBEEF#32

/-- Two words that differ only in fields their command ignores do the same in every state. That the
fields other than `tgt` and TRACK's are ignored is the spec's choice (D4; log entry 4). -/
def Obligations.IgnoredFieldsHaveNoEffect : Prop :=
  ∀ (w w' : CmdWord) (s : State),
    opField w = opField w' →
    (opField w = 0b01#2 → pcField w = pcField w') →
    (opField w = 0b10#2 → pcField w = pcField w' ∧ rdField w = rdField w' ∧ pdField w = pdField w') →
    exec (decode w) s = exec (decode w') s

/-! ## Steps and the port -/

/-- A cycle without reset that presents a valid command word performs the command the word decodes to,
on the machine with that cycle taken off the host's list. The port is the spec's own (D6; log entry
2). -/
def Obligations.StepRunsThePresentedCommand : Prop :=
  ∀ (s : State) (w : CmdWord) (i : Instr) (rest : List PortIn),
    s.input = { rst := false, cmdValid := true, cmd := w } :: rest → decode w = i →
    step s = exec i { s with input := rest }

/-- A cycle with `rst = 1`, whatever else the port holds, is the command RESET (op 11) (R91). The port
is the spec's own (D6; log entry 2). -/
def Obligations.ResetPinActsAsReset : Prop :=
  ∀ (s : State) (p : PortIn) (w : CmdWord) (rest : List PortIn),
    p.rst = true → opField w = 0b11#2 →
    step { s with input := p :: rest }
        = step { s with input := { rst := false, cmdValid := true, cmd := w } :: rest } ∧
    step { s with input := p :: rest }
        = .next { engine := some Engine.reset, input := rest, resp := none }

/-- A cycle with neither reset nor a valid command changes no state element and answers nothing; so does
every cycle after the host's list is used up. The port is the spec's own (D6; log entry 2). -/
def Obligations.IdleCycleChangesNothing : Prop :=
  ∀ s : State,
    (∀ p ∈ s.input.head?, p.rst = false ∧ p.cmdValid = false) →
    step s = .next { engine := s.engine, input := s.input.tail, resp := none }

/-- R86: PREDICT answers one bit; RESET, UPDATE and TRACK answer nothing; no command reports an
error. -/
def Obligations.OnlyPredictIsAnswered : Prop :=
  ∀ (i : Instr) (s : State),
    (∀ t, exec i s = .next t → ((∃ b, t.resp = some b) ↔ ∃ pc, i = .predict pc)) ∧
    ∀ r, exec i s ≠ .fault r

/-- R36: the state elements are mutated only by UPDATE and set by RESET; PREDICT and TRACK write
nothing. -/
def Obligations.OnlyUpdateAndResetWrite : Prop :=
  (∀ (i : Instr) (s t : State), exec i s = .next t → t.engine ≠ s.engine →
    i = .reset ∨ ∃ pc rd pd tgt, i = .update pc rd pd tgt) ∧
  (∀ (i : Instr) (s t : State), exec i s = .next t → writesNothing i = true →
    t = { s with resp := t.resp }) ∧
  ∀ s : State, ∃ e, exec .reset s = .next { engine := some e, input := s.input, resp := none }

/-- A clock cycle that changes a state element carries RESET, by word or by pin, or UPDATE. The port is
the spec's own (D6; log entry 2). -/
def Obligations.OnlyUpdateAndResetCyclesWrite : Prop :=
  ∀ s t : State, step s = .next t → t.engine ≠ s.engine →
    ∃ p rest, s.input = p :: rest ∧
      (p.rst = true ∨ (p.cmdValid = true ∧
        (decode p.cmd = .reset ∨ ∃ pc rd pd tgt, decode p.cmd = .update pc rd pd tgt)))

/-! ## TRACK and RESET -/

/-- TRACK, with any operands and in any state, before the first RESET too, leaves the state as it was and
answers nothing (R210). -/
def Obligations.TrackChangesNothing : Prop :=
  ∀ (pc : Addr) (cls : OpClass) (tgt : Addr) (s : State),
    exec (.track pc cls tgt) s = .next { s with resp := none }

/-- RESET leaves, from every state, also before the first RESET, one and the same engine: every counter
2, every BHT entry and GHR 0. The 2s are the spec's decisions (D10 to D12; log entry 5). -/
def Obligations.ResetSetsEveryElement : Prop :=
  ∃ e : Engine,
    (∀ s : State, exec .reset s = .next { engine := some e, input := s.input, resp := none }) ∧
    (∀ (T : Tbl) (i : Nat), (e.read config T i).toNat = 2) ∧
    (∀ i : Nat, (e.readBht i).toNat = 0) ∧ e.ghr.toNat = 0

/-- After RESET every PREDICT answers taken. It needs the decisions of D10 (log entry 5). -/
def Obligations.ColdStartPredictsTaken : Prop :=
  ∀ (s t : State) (pc : Addr), exec .reset s = .next t →
    exec (.predict pc) t = .next { t with resp := some true }

/-! ## The lookups -/

/-- R140, R142, R143, R145, R147, R148, R149: the record of an address, field by field, from the entries
it reaches: direct-mapped indices, votes above 1, majorities of two bank votes and the bimodal vote, the
two selections at 1 or below, the composite and the final prediction. -/
def Obligations.LookupFollowsItsRules : Prop :=
  ∀ (e : Engine) (pc : Addr) (L : Nat),
    let r := lookup config e pc L
    let votes (T : Tbl) (i : Nat) : Bool := decide ((e.read config T i).toNat > 1)
    let majority (x y z : Bool) : Bool := decide (x.toNat + y.toNat + z.toNat ≥ 2)
    (r.bi = pc.toNat % 2 ^ 15 ∧ r.cb = e.read config .bim r.bi ∧ r.bim = votes .bim r.bi) ∧
    (r.cg1 = e.read config .gb1 r.gi1 ∧ r.vg1 = votes .gb1 r.gi1 ∧ r.cg2 = e.read config .gb2 r.gi2 ∧
      r.vg2 = votes .gb2 r.gi2 ∧ r.gskew = majority r.vg1 r.vg2 r.bim) ∧
    (r.li = pc.toNat % 2 ^ 12 ∧ r.lh = e.readBht r.li) ∧
    (r.cp1 = e.read config .pb1 r.pi1 ∧ r.vp1 = votes .pb1 r.pi1 ∧ r.cp2 = e.read config .pb2 r.pi2 ∧
      r.vp2 = votes .pb2 r.pi2 ∧ r.pskew = majority r.vp1 r.vp2 r.bim) ∧
    (r.ct1 = e.read config .t1 r.t1i ∧ r.selg = decide (r.ct1.toNat ≤ 1) ∧
      r.comp = if r.selg = true then r.gskew else r.bim) ∧
    r.t2i = pc.toNat % 2 ^ 14 ∧
    (r.ct2 = e.read config .t2 r.t2i ∧ r.sel2bc = decide (r.ct2.toNat ≤ 1) ∧
      r.final = if r.sel2bc = true then r.comp else r.pskew)

/-- The answer of PREDICT (R170): it completes in every state after a RESET, answers the composite or the
pskew majority as `T2` selects (the composite being the gskew majority or the bimodal vote as `T1`
selects), and writes nothing. The five skewed indices are the lookup's. -/
def Obligations.PredictAnswersTheSelectedPrediction : Prop :=
  ∀ (s : State) (e : Engine) (pc : Addr), s.engine = some e →
    let r := lookup config e pc config.localPhtIdxLen
    let vote (T : Tbl) (i : Nat) : Nat := if (e.read config T i).toNat > 1 then 1 else 0
    let bim := vote .bim (pc.toNat % 2 ^ 15)
    let gskew := vote .gb1 r.gi1 + vote .gb2 r.gi2 + bim
    let pskew := vote .pb1 r.pi1 + vote .pb2 r.pi2 + bim
    let taken : Prop :=
      if (e.read config .t2 (pc.toNat % 2 ^ 14)).toNat ≤ 1 then
        if (e.read config .t1 r.t1i).toNat ≤ 1 then 2 ≤ gskew else bim = 1
      else 2 ≤ pskew
    ∃ b : Bool, exec (.predict pc) s = .next { s with resp := some b } ∧ (b = true ↔ taken)

/-- R53: every index of every lookup lies in its table: the direct-mapped ones are remainders of the
address, the five skewed ones are values of `MAPINDEX` at 15 bits. -/
def Obligations.EveryIndexIsInRange : Prop :=
  ∀ (e : Engine) (pc : Addr) (L : Nat), L = config.phtIdxLen ∨ L = config.localPhtIdxLen →
    let r := lookup config e pc L
    (r.bi = pc.toNat % 2 ^ 15 ∧ r.t2i = pc.toNat % 2 ^ 14 ∧ r.li = pc.toNat % 2 ^ 12) ∧
    (∀ i ∈ [r.gi1, r.gi2, r.pi1, r.pi2, r.t1i],
      (∃ a b c : BitVec 15, i = (mapIndex a b c).toNat) ∧ i < 2 ^ 15) ∧
    (∀ T : Tbl, r.entry T < 2 ^ T.idxLen config) ∧ r.li < 2 ^ config.bhtIdxLen

/-- The five skewed indices bit by bit from the address and the history. With `v1` the 15 low history
bits and `v2` the six high ones below nine address bits, bit `i` of bank 1 and of tournament 1 is
`H(v1)[i] XOR HINV(v2)[i] XOR v2[i]`, of bank 2 the same with `v1[i]` last. Rests on D13 to D17 (log
entries 6 and 7). -/
def Obligations.SkewedIndexBits : Prop :=
  ∀ (e : Engine) (pc : Addr),
    let r := lookup config e pc config.phtIdxLen
    let v1 (h : BitVec 21) (i : Nat) : Bool := h.getLsbD i
    let v2 (h : BitVec 21) (i : Nat) : Bool := if i < 6 then h.getLsbD (15 + i) else pc.getLsbD (i - 6)
    let hash (h : BitVec 21) (i : Nat) : Bool :=
      (if i = 14 then (v1 h 14 ^^ v1 h 0) else v1 h (i + 1)) ^^
      (if i = 0 then (v2 h 14 ^^ v2 h 13) else v2 h (i - 1))
    ∀ i < 15,
      r.gi1.testBit i = (hash e.ghr i ^^ v2 e.ghr i) ∧
      r.gi2.testBit i = (hash e.ghr i ^^ v1 e.ghr i) ∧
      r.t1i.testBit i = (hash e.ghr i ^^ v2 e.ghr i) ∧
      r.pi1.testBit i = (hash r.lh i ^^ v2 r.lh i) ∧
      r.pi2.testBit i = (hash r.lh i ^^ v1 r.lh i)

/-- `H` and `HINV` undo each other both ways, are permutations, and are linear over XOR, at every width
from 2. `H` itself is the spec's reading (D16, D17; log entry 7). -/
def Obligations.HashLaws : Prop :=
  ∀ n : Nat, 2 ≤ n →
    (∀ x : BitVec n, hashHinv (hashH x) = x) ∧ (∀ x : BitVec n, hashH (hashHinv x) = x) ∧
    Function.Bijective (hashH : BitVec n → BitVec n) ∧
    Function.Bijective (hashHinv : BitVec n → BitVec n) ∧
    ∀ x y : BitVec n, hashH (x ^^^ y) = hashH x ^^^ hashH y ∧
      hashHinv (x ^^^ y) = hashHinv x ^^^ hashHinv y

/-- `H` and `HINV` as numbers, for every width from 2 (D16, D17; log entry 7). -/
def Obligations.HashFormulas : Prop :=
  ∀ (n : Nat) (x : BitVec n), 2 ≤ n →
    (hashH x).toNat
      = x.toNat / 2 + (if x.getLsbD (n - 1) = x.getLsbD 0 then 0 else 2 ^ (n - 1)) ∧
    (hashHinv x).toNat
      = 2 * x.toNat % 2 ^ n + (if x.getLsbD (n - 1) = x.getLsbD (n - 2) then 0 else 1)

/-- `CONSTRUCTV` at the engine's widths, as numbers: the low field is the 15 low bits of the history, the
next-higher one nine address bits above six history bits, and a history wider than 21 bits is masked.
Which is `v1` is D13 (log entry 6). -/
def Obligations.ConstructVCutsTwoFields : Prop :=
  ∀ (w : Nat) (pc : Addr) (hist : BitVec w),
    (vectorLow pc hist 21 15).toNat = hist.toNat % 2 ^ 15 ∧
    (vectorHigh pc hist 21 15).toNat = pc.toNat % 2 ^ 9 * 2 ^ 6 + hist.toNat % 2 ^ 21 / 2 ^ 15

/-- The two bank indices of one vector differ by `v1 XOR v2`, so they are equal exactly when the fields
are (90_conflicts.md C4). The roles are D14 (log entry 6). -/
def Obligations.BankIndicesDifferByTheFields : Prop :=
  ∀ (n : Nat) (v1 v2 : BitVec n),
    roleIndex config.roleB1 v1 v2 ^^^ roleIndex config.roleB2 v1 v2 = v1 ^^^ v2 ∧
    (roleIndex config.roleB1 v1 v2 = roleIndex config.roleB2 v1 v2 ↔ v1 = v2)

/-- When the five votes of an address agree, PREDICT answers what they say, whatever the tournament
counters hold (41_predictor_banks.md section 6). -/
def Obligations.UnanimousVotesDecide : Prop :=
  ∀ (s : State) (e : Engine) (pc : Addr) (d : Bool), s.engine = some e →
    (∀ T ∈ [Tbl.bim, .gb1, .gb2, .pb1, .pb2],
      ((e.read config T ((lookup config e pc config.localPhtIdxLen).entry T)).toNat > 1 ↔ d = true)) →
    exec (.predict pc) s = .next { s with resp := some d }

/-! ## Who sees what -/

/-- Two addresses that agree in their low 15 bits are the same address in PREDICT and in UPDATE
(20_memory.md section 4). -/
def Obligations.OnlyLowFifteenAddressBitsMatter : Prop :=
  ∀ (pc pc' : Addr) (rd pd : Bool) (tgt : Addr) (s : State),
    pc.toNat % 2 ^ 15 = pc'.toNat % 2 ^ 15 →
    exec (.predict pc) s = exec (.predict pc') s ∧
    exec (.update pc rd pd tgt) s = exec (.update pc' rd pd tgt) s

/-- PREDICT and UPDATE read GHR and one entry of each table: in two engines that agree there, PREDICT
answers alike and UPDATE leaves the same values there (20_memory.md section 1). -/
def Obligations.OnlyAddressedEntriesAreRead : Prop :=
  ∀ (s s' : State) (e e' : Engine) (pc : Addr) (rd pd : Bool) (tgt : Addr),
    s.engine = some e → s'.engine = some e' →
    e.ghr = e'.ghr → e.readBht (pc.toNat % 2 ^ 12) = e'.readBht (pc.toNat % 2 ^ 12) →
    (∀ T, e.read config T ((lookup config e pc 15).entry T)
      = e'.read config T ((lookup config e pc 15).entry T)) →
    (∃ b, exec (.predict pc) s = .next { s with resp := some b } ∧
      exec (.predict pc) s' = .next { s' with resp := some b }) ∧
    ∃ f f', exec (.update pc rd pd tgt) s = .next { s with engine := some f, resp := none } ∧
      exec (.update pc rd pd tgt) s' = .next { s' with engine := some f', resp := none } ∧
      f.ghr = f'.ghr ∧ f.readBht (pc.toNat % 2 ^ 12) = f'.readBht (pc.toNat % 2 ^ 12) ∧
      ∀ T, f.read config T ((lookup config e pc 15).entry T)
        = f'.read config T ((lookup config e pc 15).entry T)

/-- R171: any PREDICTs and TRACKs complete and leave every later command's effect and answer as it would
have been without them. -/
def Obligations.PredictAndTrackArePure : Prop :=
  ∀ (cmds : List Instr) (s : State), s.engine.isSome = true → (∀ i ∈ cmds, writesNothing i = true) →
    ∃ t, execAll cmds s = .next t ∧ t.engine = s.engine ∧ t.input = s.input ∧
      ∀ i : Instr, exec i t = exec i s

/-! ## UPDATE -/

/-- Step 1 of UPDATE: `T2` moves one step toward the composite or pskew, whichever was right, when they
disagree on the pre-update state, and else is untouched. Rests on D18, D20 and D32 (log entry 8). -/
def Obligations.UpdateMovesTournament2 : Prop :=
  ∀ (s : State) (e : Engine) (pc : Addr) (rd pd : Bool) (tgt : Addr), s.engine = some e →
    let r := lookup config e pc config.phtIdxLen
    ∃ f, exec (.update pc rd pd tgt) s = .next { s with engine := some f, resp := none } ∧
      (r.comp = r.pskew → ∀ i, f.read config .t2 i = e.read config .t2 i) ∧
      (r.comp ≠ r.pskew → r.comp = rd → (f.read config .t2 r.t2i).toNat = r.ct2.toNat - 1) ∧
      (r.comp ≠ r.pskew → r.comp ≠ rd → (f.read config .t2 r.t2i).toNat = min (r.ct2.toNat + 1) 3)

/-- Step 2 of UPDATE: `T1` moves one step toward gskew or bimodal, whichever was right, when the
composite was selected and they disagree, and else is untouched. Rests on D18 and D32 (log entry 8). -/
def Obligations.UpdateMovesTournament1 : Prop :=
  ∀ (s : State) (e : Engine) (pc : Addr) (rd pd : Bool) (tgt : Addr), s.engine = some e →
    let r := lookup config e pc config.phtIdxLen
    let moves : Prop := r.sel2bc = true ∧ r.gskew ≠ r.bim
    ∃ f, exec (.update pc rd pd tgt) s = .next { s with engine := some f, resp := none } ∧
      (¬ moves → ∀ i, f.read config .t1 i = e.read config .t1 i) ∧
      (moves → r.gskew = rd → (f.read config .t1 r.t1i).toNat = r.ct1.toNat - 1) ∧
      (moves → r.gskew ≠ rd → (f.read config .t1 r.t1i).toNat = min (r.ct1.toNat + 1) 3)

/-- Step 3 of UPDATE, the gskew banks (R185). Rests on D18, D19 and D32 (log entry 8). -/
def Obligations.UpdateTrainsGskewBanks : Prop :=
  ∀ (s : State) (e : Engine) (pc : Addr) (rd pd : Bool) (tgt : Addr), s.engine = some e →
    let r := lookup config e pc config.phtIdxLen
    let gate : Prop := pd ≠ rd ∨ (r.sel2bc = true ∧ r.selg = true)
    ∃ f, exec (.update pc rd pd tgt) s = .next { s with engine := some f, resp := none } ∧
      (¬ gate → ∀ i, f.read config .gb1 i = e.read config .gb1 i
        ∧ f.read config .gb2 i = e.read config .gb2 i) ∧
      (gate → r.gskew ≠ rd → (f.read config .gb1 r.gi1).toNat = pushed r.cg1 rd
        ∧ (f.read config .gb2 r.gi2).toNat = pushed r.cg2 rd) ∧
      (gate → r.gskew = rd →
        (r.vg1 = rd → (f.read config .gb1 r.gi1).toNat = pushed r.cg1 rd) ∧
        (r.vg1 ≠ rd → ∀ i, f.read config .gb1 i = e.read config .gb1 i) ∧
        (r.vg2 = rd → (f.read config .gb2 r.gi2).toNat = pushed r.cg2 rd) ∧
        (r.vg2 ≠ rd → ∀ i, f.read config .gb2 i = e.read config .gb2 i))

/-- Step 4 of UPDATE, the pskew banks: the same rule under its own gate (R186). Rests on D18, D19 and
D32 (log entry 8). -/
def Obligations.UpdateTrainsPskewBanks : Prop :=
  ∀ (s : State) (e : Engine) (pc : Addr) (rd pd : Bool) (tgt : Addr), s.engine = some e →
    let r := lookup config e pc config.phtIdxLen
    let gate : Prop := pd ≠ rd ∨ r.sel2bc = false
    ∃ f, exec (.update pc rd pd tgt) s = .next { s with engine := some f, resp := none } ∧
      (¬ gate → ∀ i, f.read config .pb1 i = e.read config .pb1 i
        ∧ f.read config .pb2 i = e.read config .pb2 i) ∧
      (gate → r.pskew ≠ rd → (f.read config .pb1 r.pi1).toNat = pushed r.cp1 rd
        ∧ (f.read config .pb2 r.pi2).toNat = pushed r.cp2 rd) ∧
      (gate → r.pskew = rd →
        (r.vp1 = rd → (f.read config .pb1 r.pi1).toNat = pushed r.cp1 rd) ∧
        (r.vp1 ≠ rd → ∀ i, f.read config .pb1 i = e.read config .pb1 i) ∧
        (r.vp2 = rd → (f.read config .pb2 r.pi2).toNat = pushed r.cp2 rd) ∧
        (r.vp2 ≠ rd → ∀ i, f.read config .pb2 i = e.read config .pb2 i))

/-- Step 5 of UPDATE, the bimodal table (R187). Rests on D19 and D32 (log entry 8). -/
def Obligations.UpdateTrainsBimodal : Prop :=
  ∀ (s : State) (e : Engine) (pc : Addr) (rd pd : Bool) (tgt : Addr), s.engine = some e →
    let r := lookup config e pc config.phtIdxLen
    ∃ f, exec (.update pc rd pd tgt) s = .next { s with engine := some f, resp := none } ∧
      (pd ≠ rd → (f.read config .bim r.bi).toNat = pushed r.cb rd) ∧
      (pd = rd → r.bim = rd → (f.read config .bim r.bi).toNat = pushed r.cb rd) ∧
      (pd = rd → r.bim ≠ rd → ∀ i, f.read config .bim i = e.read config .bim i)

/-- Steps 6 and 7 of UPDATE (R188, R189): GHR and the address's BHT entry shift the resolved direction
in at bit 0 and keep 21 bits, unconditionally; only that one BHT entry is written. The widths are D8 and
D9 (log entry 8). -/
def Obligations.UpdateShiftsBothHistories : Prop :=
  ∀ (s : State) (e : Engine) (pc : Addr) (rd pd : Bool) (tgt : Addr), s.engine = some e →
    let li := pc.toNat % 2 ^ 12
    ∃ f, exec (.update pc rd pd tgt) s = .next { s with engine := some f, resp := none } ∧
      f.ghr.toNat = (2 * e.ghr.toNat + rd.toNat) % 2 ^ 21 ∧
      (f.readBht li).toNat = (2 * (e.readBht li).toNat + rd.toNat) % 2 ^ 21 ∧
      ∀ i, i ≠ li → f.readBht i = e.readBht i

/-- R191: two UPDATEs that differ only in the target operand have the same effect. -/
def Obligations.UpdateIgnoresTheTarget : Prop :=
  ∀ (pc : Addr) (rd pd : Bool) (tgt tgt' : Addr) (s : State),
    exec (.update pc rd pd tgt) s = exec (.update pc rd pd tgt') s

/-- The frame of UPDATE: every entry of every table whose index is not the snapshot's for that table reads
as before, and nothing of the host's side changes but the response (43_update.md section 3). -/
def Obligations.UpdateLeavesOtherEntries : Prop :=
  ∀ (s : State) (e : Engine) (pc : Addr) (rd pd : Bool) (tgt : Addr), s.engine = some e →
    let r := lookup config e pc config.phtIdxLen
    ∃ f, exec (.update pc rd pd tgt) s = .next { s with engine := some f, resp := none } ∧
      (∀ T i, i ≠ r.entry T → f.read config T i = e.read config T i) ∧
      ∀ i, i ≠ r.li → f.readBht i = e.readBht i

/-- The seven steps of UPDATE, each over the one snapshot of the pre-update state, give the same engine in
every order, for every choice of the parameters (43_update.md section 2; D18, log entry 8). -/
def Obligations.UpdateStepsCommute : Prop :=
  ∀ (c : Config) (e : Engine) (pc : Addr) (rd pd : Bool) (steps : List (Engine → Engine)),
    steps.Perm (updateSteps c (lookup c e pc c.phtIdxLen) rd (pd != rd)) →
    steps.foldl (fun x f => f x) e = updateEngine c e pc rd pd

/-! ## Tables -/

/-- R51: in every engine, reading after writing a whole entry gives the written value there and
the old value in every other entry of every table; after RESET every entry reads as its reset value. -/
def Obligations.ReadsSeeTheLastWrite : Prop :=
  ∀ (e : Engine) (T U : Tbl) (i j : Nat) (k : Counter) (h : LocalHistory),
    (e.write config T i k).read config U j = (if U = T ∧ j = i then k else e.read config U j) ∧
    (e.write config T i k).readBht j = e.readBht j ∧ (e.write config T i k).ghr = e.ghr ∧
    (e.writeBht i h).readBht j = (if j = i then h else e.readBht j) ∧
    (e.writeBht i h).read config U j = e.read config U j ∧ (e.writeBht i h).ghr = e.ghr ∧
    Engine.reset.read config U j = U.init config ∧ Engine.reset.readBht j = 0

/-- Two engines in canonical form that read the same everywhere are the same, for every choice of the
parameters. The form is the model's (log entry 1). -/
def Obligations.CanonicalEnginesAreEqual : Prop :=
  ∀ (c : Config) (e f : Engine), e.Wf c → f.Wf c →
    (∀ T i, e.read c T i = f.read c T i) → (∀ i, e.readBht i = f.readBht i) → e.ghr = f.ghr → e = f

/-- Every step keeps the canonical form of the tables, from every state that has it: listed indices rise,
lie in their table, and hold something other than the reset value (log entry 1). -/
def Obligations.StepKeepsTablesCanonical : Prop :=
  ∀ s t : State, s.Wf → step s = .next t → t.Wf

/-- The tables are canonical right after reset, and before the first RESET, when there are none. The form is
the model's (log entry 1), and that there is no content before the first RESET is the spec's decision (D21;
log entry 3). -/
def Obligations.ResetTablesAreCanonical : Prop := State.reset.Wf ∧ State.powerOn.Wf

/-! ## Completion -/

/-- After a RESET every command completes (R251), and so does every cycle, and the engine keeps having
content. The cycles are those of the spec's own port (D6; log entry 2), and the premise is its decision on
the state before the first RESET (D21; log entry 3). -/
def Obligations.EveryCommandCompletesAfterReset : Prop :=
  ∀ s : State, s.engine.isSome = true →
    (∃ t, step s = .next t ∧ t.engine.isSome = true) ∧
    ∀ i : Instr, ∃ t, exec i s = .next t ∧ t.engine.isSome = true

/-- No step faults, and a step is refused exactly when PREDICT or UPDATE is presented before the first
RESET, which is the spec's decision (D21; log entry 3). -/
def Obligations.OnlyUseBeforeResetIsRefused : Prop :=
  ∀ s : State,
    (∀ r, step s ≠ .fault r) ∧
    (∀ r, step s = .refused r ↔ r = .beforeFirstReset ∧ s.engine = none ∧
      ∃ i, s.command = some i ∧ needsReset i = true)

/-- BRANCH, the pseudo-command, completes after a RESET and is the UPDATE that carries the engine's own
answer (30_encoding.md section 4; D26). -/
def Obligations.BranchIsUpdateWithTheAnswer : Prop :=
  ∀ (s : State) (e : Engine) (pc : Addr) (rd : Bool) (tgt : Addr), s.engine = some e →
    ∃ b, exec (.predict pc) s = .next { s with resp := some b } ∧
      execBranch pc rd tgt s = exec (.update pc rd b tgt) s ∧
      ∃ t, execBranch pc rd tgt s = .next t

/-! ## Whole-machine rules -/

/-- After any commands but RESET, GHR bit `k` is the direction of the `k`-th most recent UPDATE, or, past
the oldest of them, what GHR held (10_state.md section 3; 21 bits wide by D8, log entry 8). -/
def Obligations.GhrHoldsTheRecentOutcomes : Prop :=
  ∀ (cmds : List Instr) (s : State) (e : Engine), s.engine = some e → Instr.reset ∉ cmds →
    let past := (outcomes (fun _ => true) cmds).reverse
    ∃ t f, execAll cmds s = .next t ∧ t.engine = some f ∧
      ∀ k < 21, f.ghr.getLsbD k = (past[k]?).getD (e.ghr.getLsbD (k - past.length))

/-- The same of every BHT entry, counting only the UPDATEs whose address maps to it (10_state.md section
3; D9, log entry 8). -/
def Obligations.BhtHoldsTheRecentOutcomesOfItsAddresses : Prop :=
  ∀ (cmds : List Instr) (s : State) (e : Engine), s.engine = some e → Instr.reset ∉ cmds →
    ∃ t f, execAll cmds s = .next t ∧ t.engine = some f ∧
      ∀ j, ∀ k < 21,
        let past := (outcomes (fun pc => decide (pc.toNat % 2 ^ 12 = j)) cmds).reverse
        (f.readBht j).getLsbD k = (past[k]?).getD ((e.readBht j).getLsbD (k - past.length))

/-- A history register of any greater width, shifted by any outcomes, gives every skewed index the value
that its low 21 bits give when shifted as the 21-bit register is, for every role and index length
(43_update.md section 3; 90_conflicts.md C1). -/
def Obligations.HistoryBitsAboveTwentyOneNeverMatter : Prop :=
  ∀ (w : Nat) (wide : BitVec w) (ds : List Bool) (r : Role) (pc : Addr) (idxLen : Nat), 21 ≤ w →
    skewIndex r pc (ds.foldl shiftIn wide) 21 idxLen
      = skewIndex r pc (ds.foldl shiftIn (wide.setWidth 21)) 21 idxLen

/-- Partial-update non-interference: when `pd` is the final prediction and it was right, every bank and
the bimodal table whose own vote differed from the resolved direction is left unchanged (43_update.md
section 3). Rests on the snapshot flags and on `wrong` comparing `pd` (D18, D19; log entry 8). -/
def Obligations.RightPredictionLeavesDissentersAlone : Prop :=
  ∀ (s : State) (e : Engine) (pc : Addr) (rd : Bool) (tgt : Addr), s.engine = some e →
    let r := lookup config e pc config.phtIdxLen
    r.final = rd →
    ∃ f, exec (.update pc rd r.final tgt) s = .next { s with engine := some f, resp := none } ∧
      ∀ T ∈ [Tbl.bim, .gb1, .gb2, .pb1, .pb2],
        ¬ ((e.read config T (r.entry T)).toNat > 1 ↔ rd = true) →
        ∀ i, f.read config T i = e.read config T i

/-- What the contract monitor remembers stays true of the engine through every command the contract
allows. The monitor is the model's reading of the contract (log entry 10). -/
def Obligations.MonitorAgreesWithTheEngine : Prop :=
  ∀ (m m' : Pending) (i : Instr) (s t : State), Agrees m s → exec i s = .next t →
    watch m i t.resp = some m' → Agrees m' t

/-- In a stream that keeps the sequencing contract every UPDATE carries the final prediction that its own
snapshot recomputes (70_reset_and_hazards.md section 3). The monitor is the model's reading of the
contract (log entry 10). -/
def Obligations.ContractUpdatesCarryTheFinalPrediction : Prop :=
  ∀ (before after : List Instr) (pc : Addr) (rd pd : Bool) (tgt : Addr) (s : State),
    keepsContract .idle (before ++ .update pc rd pd tgt :: after) s = true →
    ∃ u e, execAll before s = .next u ∧ u.engine = some e ∧
      pd = (lookup config e pc config.phtIdxLen).final

/-- Convergence: after 23 or more BRANCHes of one address in one direction, from any state after a RESET,
PREDICT answers that direction (43_update.md section 3; 90_conflicts.md C8). The bound rests on the snapshot
flags, the one-step moves and the 21-bit histories (D18, D32, D8, D9; log entry 8), and the premise on D21
(log entry 3). -/
def Obligations.RepeatedBranchConverges : Prop :=
  ∀ (s : State) (pc : Addr) (d : Bool) (tgt : Addr) (n : Nat), s.engine.isSome = true → 23 ≤ n →
    ∃ t, execBranches pc d tgt n s = .next t ∧
      exec (.predict pc) t = .next { t with resp := some d }
end

