-- ==== Sys2Proof/Laws/Decode.lean ====
section
/-! SUPPORT. The fields of an assembled command word, and what each opcode decodes to. -/

namespace Sys2Proof

section CommandWord

variable (op : BitVec 2) (pc : Addr) (rd pd : Bool) (tgt : Addr) (cls : OpClass)

/-- The word as a number: each field times the weight of its lowest bit (30_encoding.md R81). -/
theorem commandWord_toNat :
    (commandWord op pc rd pd tgt cls).toNat
      = ((((cls.toNat * 2 ^ 32 + tgt.toNat) * 2 + pd.toNat) * 2 + rd.toNat) * 2 ^ 32 + pc.toNat) * 4
        + op.toNat := by
  have ho := op.isLt
  have hp := pc.isLt
  have ht := tgt.isLt
  have hr : (dirBit rd).toNat = rd.toNat := by cases rd <;> rfl
  have hd : (dirBit pd).toNat = pd.toNat := by cases pd <;> rfl
  have hr' := Bool.toNat_lt rd
  have hd' := Bool.toNat_lt pd
  simp only [commandWord, BitVec.toNat_append, hr, hd]
  rw [← Nat.shiftLeft_add_eq_or_of_lt ho, ← Nat.shiftLeft_add_eq_or_of_lt hp,
    ← Nat.shiftLeft_add_eq_or_of_lt (by simpa using hr'),
    ← Nat.shiftLeft_add_eq_or_of_lt (by simpa using hd'), ← Nat.shiftLeft_add_eq_or_of_lt ht]
  simp only [Nat.shiftLeft_eq]

@[simp] theorem opField_commandWord : opField (commandWord op pc rd pd tgt cls) = op := by
  apply BitVec.eq_of_toNat_eq
  have := op.isLt
  simp only [opField, BitVec.extractLsb'_toNat, Nat.shiftRight_eq_div_pow, commandWord_toNat]
  omega

@[simp] theorem pcField_commandWord : pcField (commandWord op pc rd pd tgt cls) = pc := by
  apply BitVec.eq_of_toNat_eq
  have := op.isLt
  have := pc.isLt
  simp only [pcField, BitVec.extractLsb'_toNat, Nat.shiftRight_eq_div_pow, commandWord_toNat]
  omega

@[simp] theorem tgtField_commandWord : tgtField (commandWord op pc rd pd tgt cls) = tgt := by
  apply BitVec.eq_of_toNat_eq
  have := op.isLt
  have := pc.isLt
  have := tgt.isLt
  have := Bool.toNat_lt rd
  have := Bool.toNat_lt pd
  simp only [tgtField, BitVec.extractLsb'_toNat, Nat.shiftRight_eq_div_pow, commandWord_toNat]
  omega

@[simp] theorem clsField_commandWord : clsField (commandWord op pc rd pd tgt cls) = cls := by
  apply BitVec.eq_of_toNat_eq
  have := op.isLt
  have := pc.isLt
  have := tgt.isLt
  have := cls.isLt
  have := Bool.toNat_lt rd
  have := Bool.toNat_lt pd
  simp only [clsField, BitVec.extractLsb'_toNat, Nat.shiftRight_eq_div_pow, commandWord_toNat]
  omega

@[simp] theorem rdField_commandWord : rdField (commandWord op pc rd pd tgt cls) = rd := by
  have := op.isLt
  have := pc.isLt
  have := Bool.toNat_lt pd
  simp only [rdField, BitVec.getLsbD, Nat.testBit_eq_decide_div_mod_eq, commandWord_toNat]
  cases rd <;> simp only [Bool.toNat_true, Bool.toNat_false, decide_eq_true_eq, decide_eq_false_iff_not]
    <;> omega

@[simp] theorem pdField_commandWord : pdField (commandWord op pc rd pd tgt cls) = pd := by
  have := op.isLt
  have := pc.isLt
  have := tgt.isLt
  have := Bool.toNat_lt rd
  simp only [pdField, BitVec.getLsbD, Nat.testBit_eq_decide_div_mod_eq, commandWord_toNat]
  cases pd <;> simp only [Bool.toNat_true, Bool.toNat_false, decide_eq_true_eq, decide_eq_false_iff_not]
    <;> omega

end CommandWord

section Opcodes

variable {w : CmdWord}

theorem decode_track (h : opField w = 0b00#2) :
    decode w = .track (pcField w) (clsField w) (tgtField w) := by simp [decode, h]

theorem decode_predict (h : opField w = 0b01#2) : decode w = .predict (pcField w) := by
  simp [decode, h]

theorem decode_update (h : opField w = 0b10#2) :
    decode w = .update (pcField w) (rdField w) (pdField w) (tgtField w) := by simp [decode, h]

theorem decode_reset (h : opField w = 0b11#2) : decode w = .reset := by simp [decode, h]

/-- The four opcodes are all there are (R82). -/
theorem opField_cases (w : CmdWord) :
    opField w = 0b00#2 ∨ opField w = 0b01#2 ∨ opField w = 0b10#2 ∨ opField w = 0b11#2 := by
  generalize opField w = op
  revert op
  decide

/-- A word is the assembly of its own fields. -/
theorem commandWord_fields (w : CmdWord) :
    commandWord (opField w) (pcField w) (rdField w) (pdField w) (tgtField w) (clsField w) = w := by
  apply BitVec.eq_of_toNat_eq
  have hw := w.isLt
  have hr : (rdField w).toNat = w.toNat / 2 ^ 34 % 2 := by
    simp only [rdField, BitVec.getLsbD, Nat.testBit_eq_decide_div_mod_eq]
    rcases Nat.mod_two_eq_zero_or_one (w.toNat / 2 ^ 34) with h | h <;> rw [h] <;> rfl
  have hp : (pdField w).toNat = w.toNat / 2 ^ 35 % 2 := by
    simp only [pdField, BitVec.getLsbD, Nat.testBit_eq_decide_div_mod_eq]
    rcases Nat.mod_two_eq_zero_or_one (w.toNat / 2 ^ 35) with h | h <;> rw [h] <;> rfl
  rw [commandWord_toNat, hr, hp]
  simp only [opField, pcField, tgtField, clsField, BitVec.extractLsb'_toNat,
    Nat.shiftRight_eq_div_pow]
  omega

end Opcodes

end Sys2Proof
end

