-- ==== Sys2Proof/Laws/State.lean ====
section
/-! SUPPORT. One lemma per field per update of State and Engine. -/

namespace Sys2Proof.Machine

variable (s : State) (e : Engine) (b : Bool) (p : PortIn)

@[simp] theorem answer_engine : (s.answer b).engine = s.engine := rfl
@[simp] theorem answer_input : (s.answer b).input = s.input := rfl
@[simp] theorem answer_resp : (s.answer b).resp = some b := rfl
@[simp] theorem silent_engine : s.silent.engine = s.engine := rfl
@[simp] theorem silent_input : s.silent.input = s.input := rfl
@[simp] theorem silent_resp : s.silent.resp = none := rfl
@[simp] theorem setEngine_engine : (s.setEngine e).engine = some e := rfl
@[simp] theorem setEngine_input : (s.setEngine e).input = s.input := rfl
@[simp] theorem setEngine_resp : (s.setEngine e).resp = s.resp := rfl
@[simp] theorem advance_engine : s.advance.engine = s.engine := rfl
@[simp] theorem advance_input : s.advance.input = s.input.tail := rfl
@[simp] theorem advance_resp : s.advance.resp = s.resp := rfl
@[simp] theorem present_engine : (s.present p).engine = s.engine := rfl
@[simp] theorem present_input : (s.present p).input = p :: s.input := rfl
@[simp] theorem present_resp : (s.present p).resp = s.resp := rfl
@[simp] theorem present_advance : (s.present p).advance = s := rfl
@[simp] theorem present_command : (s.present p).command = p.command := rfl

@[simp] theorem reset_engine : State.reset.engine = some Engine.reset := rfl
@[simp] theorem reset_input : State.reset.input = [] := rfl
@[simp] theorem reset_resp : State.reset.resp = none := rfl
@[simp] theorem powerOn_engine : State.powerOn.engine = none := rfl

theorem respValid_of_some {s : State} {b : Bool} (h : s.resp = some b) : s.respValid = true := by
  simp [State.respValid, h]

theorem respTaken_of_some {s : State} {b : Bool} (h : s.resp = some b) : s.respTaken = b := by
  simp [State.respTaken, h]

theorem respTaken_of_none {s : State} (h : s.resp = none) : s.respTaken = false := by
  simp [State.respTaken, h]

variable (T U : Tbl) (t : Table 2) (i : Nat) (v : LocalHistory)

/-- Replacing one table changes that table and no other (10_state.md R20). -/
theorem setTable_table : (e.setTable T t).table U = if U = T then t else e.table U := by
  cases T <;> cases U <;> rfl

@[simp] theorem setTable_table_same : (e.setTable T t).table T = t := by cases T <;> rfl
@[simp] theorem setTable_bht : (e.setTable T t).bht = e.bht := by cases T <;> rfl
@[simp] theorem setTable_ghr : (e.setTable T t).ghr = e.ghr := by cases T <;> rfl
@[simp] theorem writeBht_table : (e.writeBht i v).table T = e.table T := by cases T <;> rfl
@[simp] theorem writeBht_ghr : (e.writeBht i v).ghr = e.ghr := rfl
@[simp] theorem setGhr_table (h : History) : ({ e with ghr := h } : Engine).table T = e.table T := by
  cases T <;> rfl
@[simp] theorem reset_table : Engine.reset.table T = [] := by cases T <;> rfl

/-- An engine is its seven counter tables, its BHT and its GHR. -/
theorem engine_ext {e f : Engine} (ht : ∀ T, e.table T = f.table T) (hb : e.bht = f.bht)
    (hg : e.ghr = f.ghr) : e = f := by
  cases e; cases f
  simp only [Engine.mk.injEq]
  exact ⟨ht .bim, ht .gb1, ht .gb2, ht .pb1, ht .pb2, ht .t1, ht .t2, hb, hg⟩

end Sys2Proof.Machine
end

