-- ==== Sys2Proof/Laws/Ops.lean ====
section
/-! SUPPORT. What the shared operations do: reading after writing, the canonical form, the counter and
history arithmetic. -/

namespace Sys2Proof.Machine

/-! ## Tables -/

section Tables

variable {w n : Nat} (d : BitVec w)

theorem read_filter_same (t : Table w) (i : Nat) :
    Table.read d (t.filter (fun x => x.1 ≠ i)) i = d := by
  induction t with
  | nil => rfl
  | cons x rest ih =>
    obtain ⟨k, u⟩ := x
    by_cases hk : k = i
    · simpa [hk] using ih
    · rw [List.filter_cons_of_pos (by simpa using hk)]
      simpa [Table.read, hk] using ih

theorem read_filter_other (t : Table w) {i j : Nat} (h : j ≠ i) :
    Table.read d (t.filter (fun x => x.1 ≠ i)) j = Table.read d t j := by
  induction t with
  | nil => rfl
  | cons x rest ih =>
    obtain ⟨k, u⟩ := x
    by_cases hk : k = i
    · rw [List.filter_cons_of_neg (by simpa using hk), ih]
      simp [Table.read, hk, Ne.symm h]
    · rw [List.filter_cons_of_pos (by simpa using hk)]
      simp only [Table.read, ih]

theorem read_insert_other (t : Table w) {i j : Nat} (v : BitVec w) (h : j ≠ i) :
    Table.read d (Table.insert i v t) j = Table.read d t j := by
  induction t with
  | nil => simp [Table.insert, Table.read, Ne.symm h]
  | cons x rest ih =>
    obtain ⟨k, u⟩ := x
    simp only [Table.insert]
    split
    · simp [Table.read, Ne.symm h]
    · simp only [Table.read, ih]

theorem read_insert_same (t : Table w) (i : Nat) (v : BitVec w) (h : ∀ x ∈ t, x.1 ≠ i) :
    Table.read d (Table.insert i v t) i = v := by
  induction t with
  | nil => simp [Table.insert, Table.read]
  | cons x rest ih =>
    obtain ⟨k, u⟩ := x
    simp only [Table.insert]
    split
    · simp [Table.read]
    · have hk : k ≠ i := h (k, u) (by simp)
      simp only [Table.read, hk, if_false]
      exact ih fun y hy => h y (List.mem_cons_of_mem _ hy)

/-- Reading after writing, in any list: the written entry holds the written value, every other entry
what it held (20_memory.md R51, R52). -/
theorem read_write (t : Table w) (i j : Nat) (v : BitVec w) :
    Table.read d (Table.write d t i v) j = if j = i then v else Table.read d t j := by
  unfold Table.write
  split
  next hv =>
    by_cases h : j = i
    · subst h; rw [read_filter_same, if_pos rfl, hv]
    · rw [read_filter_other d t h, if_neg h]
  next hv =>
    by_cases h : j = i
    · subst h
      rw [if_pos rfl, read_insert_same]
      intro x hx
      simpa using (List.mem_filter.mp hx).2
    · rw [read_insert_other d _ v h, read_filter_other d t h, if_neg h]

theorem mem_insert {t : Table w} {i : Nat} {v : BitVec w} {x : Nat × BitVec w} :
    x ∈ Table.insert i v t ↔ x = (i, v) ∨ x ∈ t := by
  induction t with
  | nil => simp [Table.insert]
  | cons y rest ih =>
    obtain ⟨k, u⟩ := y
    simp only [Table.insert]
    split
    · simp
    · simp only [List.mem_cons, ih]; tauto

theorem insert_pairwise {t : Table w} {i : Nat} {v : BitVec w}
    (h : t.Pairwise (fun x y => x.1 < y.1)) (hi : ∀ x ∈ t, x.1 ≠ i) :
    (Table.insert i v t).Pairwise (fun x y => x.1 < y.1) := by
  induction t with
  | nil => simp [Table.insert]
  | cons y rest ih =>
    obtain ⟨k, u⟩ := y
    obtain ⟨hk, hrest⟩ := List.pairwise_cons.mp h
    have hne : k ≠ i := hi (k, u) (by simp)
    simp only [Table.insert]
    split
    next hlt =>
      refine List.pairwise_cons.mpr ⟨fun x hx => ?_, h⟩
      rcases List.mem_cons.mp hx with rfl | hx
      · exact hlt
      · exact hlt.trans (hk x hx)
    next hlt =>
      refine List.pairwise_cons.mpr ⟨fun x hx => ?_, ih hrest fun x hx => hi x (by simp [hx])⟩
      rcases mem_insert.mp hx with rfl | hx
      · exact lt_of_le_of_ne (not_lt.mp hlt) hne
      · exact hk x hx

/-- A write keeps the canonical form. -/
theorem write_wf {t : Table w} {i : Nat} (v : BitVec w) (h : Table.Wf n d t) (hi : i < 2 ^ n) :
    Table.Wf n d (Table.write d t i v) := by
  have hf : Table.Wf n d (t.filter (fun x => x.1 ≠ i)) :=
    ⟨h.1.filter _, fun x hx => h.2 x (List.mem_of_mem_filter hx)⟩
  unfold Table.write
  split
  · exact hf
  next hv =>
    refine ⟨insert_pairwise hf.1 fun x hx => by simpa using (List.mem_filter.mp hx).2, fun x hx => ?_⟩
    rcases mem_insert.mp hx with rfl | hx
    · exact ⟨hi, hv⟩
    · exact hf.2 x hx

theorem nil_wf : Table.Wf n d [] := ⟨List.Pairwise.nil, by simp⟩

/-- An index below every listed one reads as the reset value. -/
theorem read_below (t : Table w) {i : Nat} (h : ∀ x ∈ t, i < x.1) : Table.read d t i = d := by
  induction t with
  | nil => rfl
  | cons x rest ih =>
    have hx : x.1 ≠ i := (h x (by simp)).ne'
    simp only [Table.read, hx, if_false]
    exact ih fun y hy => h y (List.mem_cons_of_mem _ hy)

/-- Two canonical tables with the same contents are the same list. -/
theorem table_ext {m : Nat} {t u : Table w} (ht : Table.Wf n d t) (hu : Table.Wf m d u)
    (h : ∀ i, Table.read d t i = Table.read d u i) : t = u := by
  induction t generalizing u with
  | nil =>
    cases u with
    | nil => rfl
    | cons y u' =>
      obtain ⟨k, v⟩ := y
      have hk : d = v := by simpa [Table.read] using h k
      exact absurd hk.symm (hu.2 (k, v) (by simp)).2
  | cons x t' ih =>
    obtain ⟨k, v⟩ := x
    have hv := (ht.2 (k, v) (by simp)).2
    obtain ⟨ht1, ht2⟩ := List.pairwise_cons.mp ht.1
    cases u with
    | nil =>
      have hk : v = d := by simpa [Table.read] using h k
      exact absurd hk hv
    | cons y u' =>
      obtain ⟨k', v'⟩ := y
      have hv' := (hu.2 (k', v') (by simp)).2
      obtain ⟨hu1, hu2⟩ := List.pairwise_cons.mp hu.1
      have hk : k = k' := by
        rcases lt_trichotomy k k' with hlt | heq | hgt
        · have hr := h k
          rw [read_below d ((k', v') :: u') (i := k) (by
            simp only [List.forall_mem_cons]
            exact ⟨hlt, fun x hx => hlt.trans (hu1 x hx)⟩)] at hr
          exact absurd (by simpa [Table.read] using hr) hv
        · exact heq
        · have hr := h k'
          rw [read_below d ((k, v) :: t') (i := k') (by
            simp only [List.forall_mem_cons]
            exact ⟨hgt, fun x hx => hgt.trans (ht1 x hx)⟩)] at hr
          exact absurd (by simpa [Table.read] using hr.symm) hv'
      subst hk
      obtain rfl : v = v' := by simpa [Table.read] using h k
      congr 1
      refine ih ⟨ht2, fun x hx => ht.2 x (by simp [hx])⟩ ⟨hu2, fun x hx => hu.2 x (by simp [hx])⟩
        fun i => ?_
      by_cases hi : k = i
      · subst hi; rw [read_below d t' ht1, read_below d u' hu1]
      · simpa [Table.read, hi] using h i

end Tables

/-! ## The engine's tables -/

section Tables

variable (c : Config) (e : Engine) (T U : Tbl) (i j : Nat) (k : Counter) (v : LocalHistory)

theorem mem_tbl_all : T ∈ Tbl.all := by cases T <;> decide

/-- Reading any entry of any counter table after writing one (R51, R52; 10_state.md R20: "An index into
one bank never reaches the other bank"). -/
theorem engine_read_write :
    (e.write c T i k).read c U j = if U = T ∧ j = i then k else e.read c U j := by
  unfold Engine.read Engine.write
  rw [setTable_table]
  by_cases h : U = T
  · subst h; simp [read_write]
  · simp [h]

@[simp] theorem write_readBht : (e.write c T i k).readBht j = e.readBht j := by
  simp [Engine.write, Engine.readBht]

@[simp] theorem write_bht : (e.write c T i k).bht = e.bht := by simp [Engine.write]

@[simp] theorem write_ghr : (e.write c T i k).ghr = e.ghr := by simp [Engine.write]

@[simp] theorem writeBht_read : (e.writeBht i v).read c T j = e.read c T j := by simp [Engine.read]

theorem readBht_writeBht : (e.writeBht i v).readBht j = if j = i then v else e.readBht j := by
  simp [Engine.readBht, Engine.writeBht, read_write]

@[simp] theorem setGhr_read (h : History) :
    ({ e with ghr := h } : Engine).read c T j = e.read c T j := by simp [Engine.read]

@[simp] theorem setGhr_readBht (h : History) :
    ({ e with ghr := h } : Engine).readBht j = e.readBht j := rfl

@[simp] theorem reset_read : Engine.reset.read c T j = T.init c := by simp [Engine.read, Table.read]

@[simp] theorem reset_readBht : Engine.reset.readBht j = 0 := rfl

/-- Writing a counter in range keeps the engine canonical. -/
theorem engine_write_wf {c : Config} {e : Engine} {T : Tbl} {i : Nat} (h : e.Wf c)
    (hi : i < 2 ^ T.idxLen c) : (e.write c T i k).Wf c := by
  refine ⟨fun U _ => ?_, by simpa using h.2⟩
  unfold Engine.write
  rw [setTable_table]
  split
  next hU => subst hU; exact write_wf _ _ (h.1 U (mem_tbl_all U)) hi
  · exact h.1 U (mem_tbl_all U)

theorem writeBht_wf {c : Config} {e : Engine} {i : Nat} (h : e.Wf c) (hi : i < 2 ^ c.bhtIdxLen) :
    (e.writeBht i v).Wf c :=
  ⟨fun U hU => by simpa using h.1 U hU, write_wf _ _ h.2 hi⟩

theorem setGhr_wf {c : Config} {e : Engine} (hist : History) (h : e.Wf c) :
    ({ e with ghr := hist } : Engine).Wf c :=
  ⟨fun U hU => by simpa using h.1 U hU, h.2⟩

theorem reset_engine_wf : Engine.reset.Wf c :=
  ⟨fun U _ => by simpa using nil_wf _, nil_wf _⟩

/-- Two writes to different tables can be done in either order (43_update.md R190). -/
theorem write_comm {T U : Tbl} (h : T ≠ U) (k k' : Counter) :
    (e.write c T i k).write c U j k' = (e.write c U j k').write c T i k := by
  refine engine_ext (fun V => ?_) (by simp) (by simp)
  simp only [Engine.write, setTable_table, h, Ne.symm h, if_false]
  split <;> split <;> simp_all

theorem write_writeBht_comm :
    (e.write c T i k).writeBht j v = (e.writeBht j v).write c T i k := by
  cases T <;> rfl

theorem write_setGhr_comm (h : History) :
    ({ e.write c T i k with ghr := h } : Engine) = ({ e with ghr := h } : Engine).write c T i k := by
  cases T <;> rfl

end Tables

/-! ## Counters and histories -/

theorem counter_lt (k : Counter) : k.toNat < 4 := k.isLt

/-- `PUSH` toward taken: one up, stopping at the largest value (40_counters_and_hash.md R110, R112). -/
theorem push_taken {c : Config} (h : c.ctrMax < 2 ^ 2) (k : Counter) :
    (push c k true).toNat = min (k.toNat + 1) c.ctrMax := by
  simp only [push, satInc, if_true, BitVec.toNat_ofNat]
  exact Nat.mod_eq_of_lt (lt_of_le_of_lt (min_le_right _ _) h)

/-- `PUSH` toward not-taken: one down, stopping at 0 (R111, R112). -/
theorem push_notTaken (c : Config) (k : Counter) : (push c k false).toNat = k.toNat - 1 := by
  have := counter_lt k
  simp only [push, satDec, BitVec.toNat_ofNat, Bool.false_eq_true, if_false]
  exact Nat.mod_eq_of_lt (by omega)

theorem tournamentMove_first (c : Config) (k : Counter) :
    (tournamentMove c k true).toNat = k.toNat - 1 := by
  have := counter_lt k
  simp only [tournamentMove, satDec, if_true, BitVec.toNat_ofNat]
  exact Nat.mod_eq_of_lt (by omega)

theorem tournamentMove_second {c : Config} (h : c.tctrMax < 2 ^ 2) (k : Counter) :
    (tournamentMove c k false).toNat = min (k.toNat + 1) c.tctrMax := by
  simp only [tournamentMove, satInc, BitVec.toNat_ofNat, Bool.false_eq_true, if_false]
  exact Nat.mod_eq_of_lt (lt_of_le_of_lt (min_le_right _ _) h)

theorem getLsbD_dirBit (d : Bool) (i : Nat) : (dirBit d).getLsbD i = (decide (i = 0) && d) := by
  cases d <;> simp [dirBit]

/-- Bit 0 is the new outcome and bit `k + 1` the old bit `k` (R115, 10_state.md R28). -/
theorem getLsbD_shiftIn {len : Nat} (h : BitVec len) (d : Bool) (i : Nat) :
    (shiftIn h d).getLsbD i
      = (decide (i < len) && if i = 0 then d else h.getLsbD (i - 1)) := by
  simp only [shiftIn, BitVec.getLsbD_or, BitVec.getLsbD_shiftLeft, BitVec.getLsbD_setWidth,
    getLsbD_dirBit]
  by_cases h0 : i = 0
  · subst h0; cases d <;> simp
  · have : ¬ i < 1 := by omega
    simp [h0, this]

/-- `SHIFT_IN` as a number: twice the history plus the outcome, cut to its width (R115). -/
theorem shiftIn_toNat {len : Nat} (h : BitVec len) (d : Bool) :
    (shiftIn h d).toNat = (2 * h.toNat + d.toNat) % 2 ^ len := by
  apply Nat.eq_of_testBit_eq
  intro i
  have hbit : (shiftIn h d).toNat.testBit i = (shiftIn h d).getLsbD i := rfl
  have hsum := Nat.testBit_two_pow_mul_add (i := 1) h.toNat (b := d.toNat)
    (by simpa using Bool.toNat_lt d) i
  rw [pow_one] at hsum
  rw [hbit, getLsbD_shiftIn, Nat.testBit_mod_two_pow, hsum]
  congr 1
  by_cases h0 : i = 0
  · subst h0; cases d <;> simp
  · have : ¬ i < 1 := by omega
    simp only [h0, this, if_false]; rfl

end Sys2Proof.Machine
end

