-- ==== Sys2Proof/Laws/Operands.lean ====
section
/-! SUPPORT. The skewed indexer bit by bit, and the range of every index. -/

namespace Sys2Proof.Machine

section Hash

variable {n : Nat}

/-- "result bit `i` is `a[i+1]` for `0 <= i <= n-2`, and result bit `n-1` is `a[n-1] XOR a[0]`"
(40_counters_and_hash.md R116). -/
theorem getLsbD_hashH (h : 2 ≤ n) (a : BitVec n) (i : Nat) :
    (hashH a).getLsbD i
      = if i = n - 1 then (a.getLsbD (n - 1) ^^ a.getLsbD 0) else a.getLsbD (i + 1) := by
  simp only [hashH, BitVec.getLsbD_or, BitVec.getLsbD_ushiftRight, BitVec.getLsbD_shiftLeft,
    BitVec.getLsbD_setWidth, getLsbD_dirBit]
  split
  next hi =>
    subst hi
    have h1 : a.getLsbD (1 + (n - 1)) = false := BitVec.getLsbD_of_ge _ _ (by omega)
    have h2 : n - 1 < n := by omega
    have h3 : 0 < n := by omega
    simp [h1, h2, h3]
  next hi =>
    by_cases hlt : i < n - 1
    · simp [hlt, Nat.add_comm]
    · have h0 : ¬ i - (n - 1) = 0 := by omega
      simp [h0, Nat.add_comm]

/-- "result bit `i` is `b[i-1]` for `1 <= i <= n-1`, and result bit 0 is `b[n-1] XOR b[n-2]`" (R117). -/
theorem getLsbD_hashHinv (h : 2 ≤ n) (b : BitVec n) (i : Nat) :
    (hashHinv b).getLsbD i
      = (decide (i < n) && if i = 0 then (b.getLsbD (n - 1) ^^ b.getLsbD (n - 2))
          else b.getLsbD (i - 1)) := by
  simp only [hashHinv, BitVec.getLsbD_or, BitVec.getLsbD_shiftLeft, BitVec.getLsbD_setWidth,
    getLsbD_dirBit]
  by_cases hi : i = 0
  · subst hi
    have : 0 < n := by omega
    simp [this]
  · have : ¬ i < 1 := by omega
    simp [hi, this]

@[simp] theorem pickField_v1 (v1 v2 : BitVec n) : pickField .v1 v1 v2 = v1 := rfl
@[simp] theorem pickField_v2 (v1 v2 : BitVec n) : pickField .v2 v1 v2 = v2 := rfl

end Hash

section Vector

variable {w : Nat} (pc : Addr) (hist : BitVec w) (histLen idxLen i : Nat)

/-- The wide value: history below, address above (R120). -/
theorem getLsbD_wideVector :
    (wideVector pc hist histLen).getLsbD i
      = if i < histLen then hist.getLsbD i else pc.getLsbD (i - histLen) := by
  simp only [wideVector, BitVec.getLsbD_append, BitVec.getLsbD_setWidth]
  split <;> simp_all

/-- The low field, bit by bit. -/
theorem getLsbD_vectorLow :
    (vectorLow pc hist histLen idxLen).getLsbD i
      = (decide (i < idxLen) && if i < histLen then hist.getLsbD i else pc.getLsbD (i - histLen)) := by
  simp [vectorLow, getLsbD_wideVector]

/-- The next-higher field, bit by bit. -/
theorem getLsbD_vectorHigh :
    (vectorHigh pc hist histLen idxLen).getLsbD i
      = (decide (i < idxLen) && if idxLen + i < histLen then hist.getLsbD (idxLen + i)
          else pc.getLsbD (idxLen + i - histLen)) := by
  simp [vectorHigh, getLsbD_wideVector]

/-- Every skewed index lies in its table (20_memory.md R53). -/
theorem skewIndex_lt (r : Role) : skewIndex r pc hist histLen idxLen < 2 ^ idxLen :=
  BitVec.isLt _

/-- A skewed index sees the address only through its low `2 * idxLen - histLen` bits (20_memory.md
R66). -/
theorem skewIndex_congr_pc (r : Role) {pc' : Addr}
    (h : ∀ k, histLen + k < 2 * idxLen → pc.getLsbD k = pc'.getLsbD k) :
    skewIndex r pc hist histLen idxLen = skewIndex r pc' hist histLen idxLen := by
  have hl : vectorLow pc hist histLen idxLen = vectorLow pc' hist histLen idxLen := by
    apply BitVec.eq_of_getLsbD_eq
    intro k hk
    simp only [getLsbD_vectorLow, hk, decide_true, Bool.true_and]
    split
    · rfl
    · exact h _ (by omega)
  have hh : vectorHigh pc hist histLen idxLen = vectorHigh pc' hist histLen idxLen := by
    apply BitVec.eq_of_getLsbD_eq
    intro k hk
    simp only [getLsbD_vectorHigh, hk, decide_true, Bool.true_and]
    split
    · rfl
    · exact h _ (by omega)
  simp only [skewIndex, hl, hh]

/-- A skewed index sees a history only through its low `histLen` bits (43_update.md R197). -/
theorem skewIndex_congr_hist {w' : Nat} (r : Role) {hist' : BitVec w'}
    (h : ∀ k, k < histLen → hist.getLsbD k = hist'.getLsbD k) :
    skewIndex r pc hist histLen idxLen = skewIndex r pc hist' histLen idxLen := by
  have hw : wideVector pc hist histLen = wideVector pc hist' histLen := by
    apply BitVec.eq_of_getLsbD_eq
    intro k _
    simp only [getLsbD_wideVector]
    split
    next hk => exact h k hk
    · rfl
  simp only [skewIndex, vectorLow, vectorHigh, hw]

end Vector

section Ranges

variable (c : Config) (pc : Addr) (ghr : History) (lh : LocalHistory)

theorem bimodalIndex_lt : bimodalIndex c pc < 2 ^ c.bimIdxLen := Nat.mod_lt _ (by positivity)
theorem localIndex_lt : localIndex c pc < 2 ^ c.bhtIdxLen := Nat.mod_lt _ (by positivity)
theorem tournament2Index_lt : tournament2Index c pc < 2 ^ c.t2IdxLen := Nat.mod_lt _ (by positivity)
theorem gskewIndex1_lt : gskewIndex1 c pc ghr < 2 ^ c.phtIdxLen := skewIndex_lt _ _ _ _ _
theorem gskewIndex2_lt : gskewIndex2 c pc ghr < 2 ^ c.phtIdxLen := skewIndex_lt _ _ _ _ _
theorem pskewIndex1_lt (L : Nat) : pskewIndex1 c pc lh L < 2 ^ L := skewIndex_lt _ _ _ _ _
theorem pskewIndex2_lt (L : Nat) : pskewIndex2 c pc lh L < 2 ^ L := skewIndex_lt _ _ _ _ _
theorem tournament1Index_lt : tournament1Index c pc ghr < 2 ^ c.t1IdxLen := skewIndex_lt _ _ _ _ _

end Ranges

end Sys2Proof.Machine
end

