-- ==== Sys2Proof/Laws/Lookup.lean ====
section
/-! SUPPORT. What each field of LOOKUP is (41_predictor_banks.md R140 to R150), and where its indices
lie. -/

namespace Sys2Proof.Machine

/-! ## Votes and majorities -/

/-- A majority is what at least two of the three say. -/
theorem maj3_eq (x y z : Bool) : maj3 x y z = ((x && y) || (x && z) || (y && z)) := by
  cases x <;> cases y <;> cases z <;> rfl

@[simp] theorem maj3_same_left (d z : Bool) : maj3 d d z = d := by cases d <;> cases z <;> rfl

section Fields

variable (c : Config) (e : Engine) (pc : Addr) (L : Nat)

theorem lookup_bi : (lookup c e pc L).bi = bimodalIndex c pc := rfl
theorem lookup_gi1 : (lookup c e pc L).gi1 = gskewIndex1 c pc e.ghr := rfl
theorem lookup_gi2 : (lookup c e pc L).gi2 = gskewIndex2 c pc e.ghr := rfl
theorem lookup_li : (lookup c e pc L).li = localIndex c pc := rfl
theorem lookup_lh : (lookup c e pc L).lh = e.readBht (localIndex c pc) := rfl
theorem lookup_pi1 : (lookup c e pc L).pi1 = pskewIndex1 c pc (lookup c e pc L).lh L := rfl
theorem lookup_pi2 : (lookup c e pc L).pi2 = pskewIndex2 c pc (lookup c e pc L).lh L := rfl
theorem lookup_t1i : (lookup c e pc L).t1i = tournament1Index c pc e.ghr := rfl
theorem lookup_t2i : (lookup c e pc L).t2i = tournament2Index c pc := rfl
theorem lookup_cb : (lookup c e pc L).cb = e.read c .bim (lookup c e pc L).bi := rfl
theorem lookup_cg1 : (lookup c e pc L).cg1 = e.read c .gb1 (lookup c e pc L).gi1 := rfl
theorem lookup_cg2 : (lookup c e pc L).cg2 = e.read c .gb2 (lookup c e pc L).gi2 := rfl
theorem lookup_cp1 : (lookup c e pc L).cp1 = e.read c .pb1 (lookup c e pc L).pi1 := rfl
theorem lookup_cp2 : (lookup c e pc L).cp2 = e.read c .pb2 (lookup c e pc L).pi2 := rfl
theorem lookup_ct1 : (lookup c e pc L).ct1 = e.read c .t1 (lookup c e pc L).t1i := rfl
theorem lookup_ct2 : (lookup c e pc L).ct2 = e.read c .t2 (lookup c e pc L).t2i := rfl
theorem lookup_bim : (lookup c e pc L).bim = vote c (lookup c e pc L).cb := rfl
theorem lookup_vg1 : (lookup c e pc L).vg1 = vote c (lookup c e pc L).cg1 := rfl
theorem lookup_vg2 : (lookup c e pc L).vg2 = vote c (lookup c e pc L).cg2 := rfl
theorem lookup_vp1 : (lookup c e pc L).vp1 = vote c (lookup c e pc L).cp1 := rfl
theorem lookup_vp2 : (lookup c e pc L).vp2 = vote c (lookup c e pc L).cp2 := rfl
theorem lookup_gskew : (lookup c e pc L).gskew
    = maj3 (lookup c e pc L).vg1 (lookup c e pc L).vg2 (lookup c e pc L).bim := rfl
theorem lookup_pskew : (lookup c e pc L).pskew
    = maj3 (lookup c e pc L).vp1 (lookup c e pc L).vp2 (lookup c e pc L).bim := rfl
theorem lookup_selg : (lookup c e pc L).selg = selectsFirst c (lookup c e pc L).ct1 := rfl
theorem lookup_comp : (lookup c e pc L).comp
    = if (lookup c e pc L).selg then (lookup c e pc L).gskew else (lookup c e pc L).bim := rfl
theorem lookup_sel2bc : (lookup c e pc L).sel2bc = selectsFirst c (lookup c e pc L).ct2 := rfl
theorem lookup_final : (lookup c e pc L).final
    = if (lookup c e pc L).sel2bc then (lookup c e pc L).comp else (lookup c e pc L).pskew := rfl

end Fields

/-- The counters of the record are the ones its entries hold. -/
theorem lookup_counter (c : Config) (e : Engine) (pc : Addr) (L : Nat) (T : Tbl) :
    (lookup c e pc L).counter T = e.read c T ((lookup c e pc L).entry T) := by
  cases T <;> rfl

/-- Every entry the lookup made with the pskew banks' own index length reaches lies in its table (R53). -/
theorem lookup_entry_lt (c : Config) (e : Engine) (pc : Addr) {L : Nat} (hL : L = c.localPhtIdxLen)
    (T : Tbl) : (lookup c e pc L).entry T < 2 ^ T.idxLen c := by
  subst hL
  cases T
  · exact bimodalIndex_lt c pc
  · exact gskewIndex1_lt c pc _
  · exact gskewIndex2_lt c pc _
  · exact pskewIndex1_lt c pc _ _
  · exact pskewIndex2_lt c pc _ _
  · exact tournament1Index_lt c pc _
  · exact tournament2Index_lt c pc

/-- Five equal votes decide everything, whatever the tournament counters hold (R151 (a)). -/
theorem ofCounters_unanimous {c : Config} {bi gi1 gi2 li pi1 pi2 t1i t2i : Nat} {lh : LocalHistory}
    {cb cg1 cg2 cp1 cp2 : Counter} (ct1 ct2 : Counter) {d : Bool}
    (hb : vote c cb = d) (h1 : vote c cg1 = d) (h2 : vote c cg2 = d) (h3 : vote c cp1 = d)
    (h4 : vote c cp2 = d) :
    let r := Lookup.ofCounters c bi gi1 gi2 li pi1 pi2 t1i t2i lh cb cg1 cg2 cp1 cp2 ct1 ct2
    r.gskew = d ∧ r.pskew = d ∧ r.comp = d ∧ r.final = d := by
  simp [Lookup.ofCounters, hb, h1, h2, h3, h4]

/-- The lookup sees the engine only through GHR, one BHT entry and one entry of each counter table
(20_memory.md R54). -/
theorem lookup_congr {c : Config} {e f : Engine} {pc : Addr} {L : Nat} (hg : e.ghr = f.ghr)
    (hl : e.readBht (localIndex c pc) = f.readBht (localIndex c pc))
    (h : ∀ T, e.read c T ((lookup c e pc L).entry T) = f.read c T ((lookup c e pc L).entry T)) :
    lookup c e pc L = lookup c f pc L := by
  have hb := h .bim
  have h1 := h .gb1
  have h2 := h .gb2
  have h3 := h .pb1
  have h4 := h .pb2
  have h5 := h .t1
  have h6 := h .t2
  simp only [Lookup.entry, lookup_bi, lookup_gi1, lookup_gi2, lookup_pi1, lookup_pi2, lookup_lh,
    lookup_t1i, lookup_t2i] at hb h1 h2 h3 h4 h5 h6
  rw [hg] at h1 h2 h5
  rw [hl] at h3 h4
  unfold lookup
  simp only [hg, hl, hb, h1, h2, h3, h4, h5, h6]

/-- The lookup sees the address only through its low bits (R66, R151 (b)). -/
theorem lookup_congr_pc {c : Config} (e : Engine) {pc pc' : Addr} (L : Nat)
    (hb : bimodalIndex c pc = bimodalIndex c pc') (hl : localIndex c pc = localIndex c pc')
    (h2 : tournament2Index c pc = tournament2Index c pc')
    (hs : ∀ (r : Role) (n : Nat) (hist : History), n = c.phtIdxLen ∨ n = c.t1IdxLen ∨ n = L →
      skewIndex r pc hist 21 n = skewIndex r pc' hist 21 n) :
    lookup c e pc L = lookup c e pc' L := by
  have g1 : gskewIndex1 c pc e.ghr = gskewIndex1 c pc' e.ghr := hs _ _ _ (.inl rfl)
  have g2 : gskewIndex2 c pc e.ghr = gskewIndex2 c pc' e.ghr := hs _ _ _ (.inl rfl)
  have t1 : tournament1Index c pc e.ghr = tournament1Index c pc' e.ghr := hs _ _ _ (.inr (.inl rfl))
  have p1 : ∀ lh, pskewIndex1 c pc lh L = pskewIndex1 c pc' lh L := fun lh => hs _ _ lh (.inr (.inr rfl))
  have p2 : ∀ lh, pskewIndex2 c pc lh L = pskewIndex2 c pc' lh L := fun lh => hs _ _ lh (.inr (.inr rfl))
  unfold lookup
  simp only [hb, hl, h2, g1, g2, t1, p1, p2]

end Sys2Proof.Machine
end

