-- ==== Sys2Proof/Laws/Params.lean ====
section
/-! SUPPORT. The engine's parameter values, and what the parametric functions are at them
(00_scope.md R6). -/

namespace Sys2Proof.Machine

@[simp] theorem config_ctrMax : config.ctrMax = 3 := rfl
@[simp] theorem config_tctrMax : config.tctrMax = 3 := rfl
@[simp] theorem config_bimIdxLen : config.bimIdxLen = 15 := rfl
@[simp] theorem config_phtIdxLen : config.phtIdxLen = 15 := rfl
@[simp] theorem config_localPhtIdxLen : config.localPhtIdxLen = 15 := rfl
@[simp] theorem config_t1IdxLen : config.t1IdxLen = 15 := rfl
@[simp] theorem config_t2IdxLen : config.t2IdxLen = 14 := rfl
@[simp] theorem config_bhtIdxLen : config.bhtIdxLen = 12 := rfl
@[simp] theorem config_init (T : Tbl) : T.init config = 2#2 := by cases T <;> rfl

/-- The vote at the engine's threshold (10_state.md R26). -/
theorem vote_config (k : Counter) : vote config k = decide (1 < k.toNat) := rfl

/-- The selection at the engine's threshold (R27). -/
theorem selectsFirst_config (k : Counter) : selectsFirst config k = decide (k.toNat ≤ 1) := rfl

/-- One push at the engine's range (40_counters_and_hash.md R110 to R112). -/
theorem push_config (k : Counter) (d : Bool) :
    (push config k d).toNat = if d then min (k.toNat + 1) 3 else k.toNat - 1 := by
  cases d
  · exact push_notTaken config k
  · exact push_taken (by decide) k

/-- One tournament move at the engine's range. -/
theorem tournamentMove_config (k : Counter) (first : Bool) :
    (tournamentMove config k first).toNat = if first then k.toNat - 1 else min (k.toNat + 1) 3 := by
  cases first
  · exact tournamentMove_second (by decide) k
  · exact tournamentMove_first config k

/-- PREDICT and UPDATE look up the pskew banks at the same length (43_update.md R192). -/
theorem lookup_config (e : Engine) (pc : Addr) :
    lookup config e pc config.localPhtIdxLen = lookup config e pc config.phtIdxLen := rfl

/-- Two pushes in one direction make any counter vote that way (43_update.md R196 (iii)). -/
theorem vote_push_push (k : Counter) (d : Bool) : vote config (push config (push config k d) d) = d := by
  revert k d; decide

/-- A push moves a vote only toward its direction (R196 (ii)). -/
theorem vote_push_of_vote {k : Counter} {d : Bool} (h : vote config k = d) :
    vote config (push config k d) = d := by
  revert k d; decide

/-- A move toward the first rival keeps it selected. -/
theorem selectsFirst_move_first {k : Counter} (h : selectsFirst config k = true) :
    selectsFirst config (tournamentMove config k true) = true := by
  revert k; decide

/-- A move toward the second rival keeps it selected. -/
theorem selectsFirst_move_second {k : Counter} (h : selectsFirst config k = false) :
    selectsFirst config (tournamentMove config k false) = false := by
  revert k; decide

end Sys2Proof.Machine
end

