-- ==== Sys2Proof/Laws/Predictor.lean ====
section
/-! SUPPORT. What UPDATE leaves in every entry of every table (43_update.md R183 to R189), step by step
and as a whole, and that it keeps the canonical form. -/

namespace Sys2Proof.Machine

/-! ## One step at a time -/

section Steps

variable (c : Config) (r : Lookup) (rd wrong : Bool) (e : Engine) (U : Tbl) (j : Nat)

theorem pushBank_read (T : Tbl) (i : Nat) (k : Counter) (go : Bool) :
    (pushBank c T i k rd go e).read c U j
      = if U = T ∧ j = i ∧ go = true then push c k rd else e.read c U j := by
  unfold pushBank
  cases go <;> simp [engine_read_write]

theorem updateT2_read :
    (updateT2 c r rd e).read c U j
      = if U = .t2 ∧ j = r.t2i ∧ r.comp ≠ r.pskew then tournamentMove c r.ct2 (r.comp == rd)
        else e.read c U j := by
  unfold updateT2
  by_cases h : r.comp = r.pskew <;> simp [h, engine_read_write]

theorem updateT1_read :
    (updateT1 c r rd e).read c U j
      = if U = .t1 ∧ j = r.t1i ∧ r.sel2bc = true ∧ r.gskew ≠ r.bim
        then tournamentMove c r.ct1 (r.gskew == rd) else e.read c U j := by
  unfold updateT1
  by_cases h : r.gskew = r.bim <;> cases hs : r.sel2bc <;> simp [h, engine_read_write]

/-- The gate of step 3 (R185). -/
def gskewGate (r : Lookup) (wrong : Bool) : Bool := wrong || (r.sel2bc && r.selg)

/-- The gate of step 4 (R186). -/
def pskewGate (r : Lookup) (wrong : Bool) : Bool := wrong || !r.sel2bc

theorem updateGskew_eq :
    updateGskew c r rd wrong e
      = pushBank c .gb2 r.gi2 r.cg2 rd (gskewGate r wrong && (r.gskew != rd || r.vg2 == rd))
          (pushBank c .gb1 r.gi1 r.cg1 rd (gskewGate r wrong && (r.gskew != rd || r.vg1 == rd)) e) := by
  unfold updateGskew gskewGate
  cases h : (wrong || (r.sel2bc && r.selg)) <;> simp [trainBank, pushBank]

theorem updatePskew_eq :
    updatePskew c r rd wrong e
      = pushBank c .pb2 r.pi2 r.cp2 rd (pskewGate r wrong && (r.pskew != rd || r.vp2 == rd))
          (pushBank c .pb1 r.pi1 r.cp1 rd (pskewGate r wrong && (r.pskew != rd || r.vp1 == rd)) e) := by
  unfold updatePskew pskewGate
  cases h : (wrong || !r.sel2bc) <;> simp [trainBank, pushBank]

theorem updateGhr_read : (updateGhr rd e).read c U j = e.read c U j := setGhr_read c e U j _

theorem updateBht_read : (updateBht r rd e).read c U j = e.read c U j := writeBht_read c e U _ j _

@[simp] theorem pushBank_readBht (T : Tbl) (i : Nat) (k : Counter) (go : Bool) :
    (pushBank c T i k rd go e).readBht j = e.readBht j := by
  unfold pushBank; split <;> simp

@[simp] theorem pushBank_ghr (T : Tbl) (i : Nat) (k : Counter) (go : Bool) :
    (pushBank c T i k rd go e).ghr = e.ghr := by
  unfold pushBank; split <;> simp

@[simp] theorem updateT2_readBht : (updateT2 c r rd e).readBht j = e.readBht j := by
  unfold updateT2; split <;> simp

@[simp] theorem updateT2_ghr : (updateT2 c r rd e).ghr = e.ghr := by
  unfold updateT2; split <;> simp

@[simp] theorem updateT1_readBht : (updateT1 c r rd e).readBht j = e.readBht j := by
  unfold updateT1; split <;> simp

@[simp] theorem updateT1_ghr : (updateT1 c r rd e).ghr = e.ghr := by
  unfold updateT1; split <;> simp

theorem pushBank_wf {c : Config} {e : Engine} {T : Tbl} {i : Nat} (h : e.Wf c)
    (hi : i < 2 ^ T.idxLen c) (k : Counter) (rd go : Bool) : (pushBank c T i k rd go e).Wf c := by
  unfold pushBank
  split
  · exact engine_write_wf _ h hi
  · exact h

end Steps

/-! ## Guarded writes to different tables commute (R190) -/

section Commute

variable (c : Config) (r : Lookup) (rd : Bool) (e : Engine)

/-- A write that happens when `go` holds: what steps 1 to 5 are made of. -/
def guardedWrite (c : Config) (T : Tbl) (i : Nat) (v : Counter) (go : Bool) (e : Engine) : Engine :=
  if go then e.write c T i v else e

theorem guardedWrite_comm {T U : Tbl} (h : T ≠ U) (i j : Nat) (v v' : Counter) (go go' : Bool) :
    guardedWrite c T i v go (guardedWrite c U j v' go' e)
      = guardedWrite c U j v' go' (guardedWrite c T i v go e) := by
  unfold guardedWrite
  cases go <;> cases go' <;> simp
  exact write_comm c e _ _ (Ne.symm h) _ _

theorem guardedWrite_updateGhr (T : Tbl) (i : Nat) (v : Counter) (go : Bool) :
    guardedWrite c T i v go (updateGhr rd e) = updateGhr rd (guardedWrite c T i v go e) := by
  cases go
  · rfl
  · cases T <;> rfl

theorem guardedWrite_updateBht (T : Tbl) (i : Nat) (v : Counter) (go : Bool) :
    guardedWrite c T i v go (updateBht r rd e) = updateBht r rd (guardedWrite c T i v go e) := by
  cases go
  · rfl
  · cases T <;> rfl

theorem pushBank_guarded (T : Tbl) (i : Nat) (k : Counter) (go : Bool) :
    pushBank c T i k rd go e = guardedWrite c T i (push c k rd) go e := rfl

end Commute

/-! ## The whole of UPDATE -/

section Whole

variable (c : Config) (e : Engine) (pc : Addr) (rd pd : Bool)

/-- The snapshot of UPDATE (R181). -/
def snapshot (c : Config) (e : Engine) (pc : Addr) : Lookup := lookup c e pc c.phtIdxLen

/-- UPDATE as the seven steps over the snapshot, with every bank push written as one. -/
theorem updateEngine_eq :
    updateEngine c e pc rd pd
      = updateBht (snapshot c e pc) rd (updateGhr rd (updateBimodal c (snapshot c e pc) rd (pd != rd)
          (updatePskew c (snapshot c e pc) rd (pd != rd) (updateGskew c (snapshot c e pc) rd (pd != rd)
            (updateT1 c (snapshot c e pc) rd (updateT2 c (snapshot c e pc) rd e)))))) := rfl

theorem update_t2 (i : Nat) :
    (updateEngine c e pc rd pd).read c .t2 i
      = if i = (snapshot c e pc).t2i ∧ (snapshot c e pc).comp ≠ (snapshot c e pc).pskew
        then tournamentMove c (snapshot c e pc).ct2 ((snapshot c e pc).comp == rd)
        else e.read c .t2 i := by
  simp [updateEngine_eq, updateBht_read, updateGhr_read, updateBimodal, pushBank_read, updatePskew_eq,
    updateGskew_eq, updateT1_read, updateT2_read]

theorem update_t1 (i : Nat) :
    (updateEngine c e pc rd pd).read c .t1 i
      = if i = (snapshot c e pc).t1i ∧ (snapshot c e pc).sel2bc = true
            ∧ (snapshot c e pc).gskew ≠ (snapshot c e pc).bim
        then tournamentMove c (snapshot c e pc).ct1 ((snapshot c e pc).gskew == rd)
        else e.read c .t1 i := by
  simp [updateEngine_eq, updateBht_read, updateGhr_read, updateBimodal, pushBank_read, updatePskew_eq,
    updateGskew_eq, updateT1_read, updateT2_read]

theorem update_gb1 (i : Nat) :
    (updateEngine c e pc rd pd).read c .gb1 i
      = if i = (snapshot c e pc).gi1 ∧ (gskewGate (snapshot c e pc) (pd != rd)
            && ((snapshot c e pc).gskew != rd || (snapshot c e pc).vg1 == rd)) = true
        then push c (snapshot c e pc).cg1 rd else e.read c .gb1 i := by
  simp [updateEngine_eq, updateBht_read, updateGhr_read, updateBimodal, pushBank_read, updatePskew_eq,
    updateGskew_eq, updateT1_read, updateT2_read]

theorem update_gb2 (i : Nat) :
    (updateEngine c e pc rd pd).read c .gb2 i
      = if i = (snapshot c e pc).gi2 ∧ (gskewGate (snapshot c e pc) (pd != rd)
            && ((snapshot c e pc).gskew != rd || (snapshot c e pc).vg2 == rd)) = true
        then push c (snapshot c e pc).cg2 rd else e.read c .gb2 i := by
  simp [updateEngine_eq, updateBht_read, updateGhr_read, updateBimodal, pushBank_read, updatePskew_eq,
    updateGskew_eq, updateT1_read, updateT2_read]

theorem update_pb1 (i : Nat) :
    (updateEngine c e pc rd pd).read c .pb1 i
      = if i = (snapshot c e pc).pi1 ∧ (pskewGate (snapshot c e pc) (pd != rd)
            && ((snapshot c e pc).pskew != rd || (snapshot c e pc).vp1 == rd)) = true
        then push c (snapshot c e pc).cp1 rd else e.read c .pb1 i := by
  simp [updateEngine_eq, updateBht_read, updateGhr_read, updateBimodal, pushBank_read, updatePskew_eq,
    updateGskew_eq, updateT1_read, updateT2_read]

theorem update_pb2 (i : Nat) :
    (updateEngine c e pc rd pd).read c .pb2 i
      = if i = (snapshot c e pc).pi2 ∧ (pskewGate (snapshot c e pc) (pd != rd)
            && ((snapshot c e pc).pskew != rd || (snapshot c e pc).vp2 == rd)) = true
        then push c (snapshot c e pc).cp2 rd else e.read c .pb2 i := by
  simp [updateEngine_eq, updateBht_read, updateGhr_read, updateBimodal, pushBank_read, updatePskew_eq,
    updateGskew_eq, updateT1_read, updateT2_read]

theorem update_bim (i : Nat) :
    (updateEngine c e pc rd pd).read c .bim i
      = if i = (snapshot c e pc).bi ∧ ((pd != rd) || (snapshot c e pc).bim == rd) = true
        then push c (snapshot c e pc).cb rd else e.read c .bim i := by
  simp [updateEngine_eq, updateBht_read, updateGhr_read, updateBimodal, pushBank_read, updatePskew_eq,
    updateGskew_eq, updateT1_read, updateT2_read]

theorem update_ghr : (updateEngine c e pc rd pd).ghr = shiftIn e.ghr rd := by
  simp [updateEngine_eq, updateBht, updateGhr, updateBimodal, updatePskew_eq, updateGskew_eq]

theorem update_readBht (i : Nat) :
    (updateEngine c e pc rd pd).readBht i
      = if i = localIndex c pc then shiftIn (e.readBht (localIndex c pc)) rd else e.readBht i := by
  simp [updateEngine_eq, updateBht, updateGhr, updateBimodal, updatePskew_eq, updateGskew_eq,
    readBht_writeBht, snapshot, lookup_li, lookup_lh]

/-- Every counter UPDATE does not address stays (R193). -/
theorem update_read_other {T : Tbl} {i : Nat} (h : i ≠ (snapshot c e pc).entry T) :
    (updateEngine c e pc rd pd).read c T i = e.read c T i := by
  cases T
  · rw [update_bim, if_neg fun hh => h hh.1]
  · rw [update_gb1, if_neg fun hh => h hh.1]
  · rw [update_gb2, if_neg fun hh => h hh.1]
  · rw [update_pb1, if_neg fun hh => h hh.1]
  · rw [update_pb2, if_neg fun hh => h hh.1]
  · rw [update_t1, if_neg fun hh => h hh.1]
  · rw [update_t2, if_neg fun hh => h hh.1]

/-- UPDATE keeps the canonical form, for parameters that satisfy R7 (c). -/
theorem update_wf {c : Config} {e : Engine} (hc : c.localPhtIdxLen = c.phtIdxLen) (h : e.Wf c)
    (pc : Addr) (rd pd : Bool) : (updateEngine c e pc rd pd).Wf c := by
  have hlt : ∀ T : Tbl, (snapshot c e pc).entry T < 2 ^ T.idxLen c :=
    lookup_entry_lt c e pc hc.symm
  have h1 : (updateT2 c (snapshot c e pc) rd e).Wf c := by
    unfold updateT2; split
    · exact engine_write_wf _ h (hlt .t2)
    · exact h
  have h2 : (updateT1 c (snapshot c e pc) rd (updateT2 c (snapshot c e pc) rd e)).Wf c := by
    unfold updateT1; split
    · exact engine_write_wf _ h1 (hlt .t1)
    · exact h1
  rw [updateEngine_eq, updatePskew_eq, updateGskew_eq]
  exact writeBht_wf _ (setGhr_wf _ (pushBank_wf (pushBank_wf (pushBank_wf (pushBank_wf (pushBank_wf h2
    (hlt .gb1) _ _ _) (hlt .gb2) _ _ _) (hlt .pb1) _ _ _) (hlt .pb2) _ _ _) (hlt .bim) _ _ _))
    (localIndex_lt c pc)

end Whole

end Sys2Proof.Machine
end

