-- ==== Sys2Proof/Laws/Exec.lean ====
section
/-! SUPPORT. What each command does to the machine, and what a step does. -/

namespace Sys2Proof.Machine

variable {s t : State} {e : Engine}

theorem onEngine_some (h : s.engine = some e) (f : Engine → State) : s.onEngine f = .next (f e) := by
  simp [State.onEngine, h]

theorem onEngine_none (h : s.engine = none) (f : Engine → State) :
    s.onEngine f = .refused .beforeFirstReset := by
  simp [State.onEngine, h]

theorem exec_track (pc : Addr) (cls : OpClass) (tgt : Addr) (s : State) :
    exec (.track pc cls tgt) s = .next s.silent := rfl

theorem exec_reset (s : State) : exec .reset s = .next (s.silent.setEngine Engine.reset) := rfl

theorem exec_predict (h : s.engine = some e) (pc : Addr) :
    exec (.predict pc) s = .next (s.answer (prediction config e pc)) :=
  onEngine_some h _

theorem exec_update (h : s.engine = some e) (pc : Addr) (rd pd : Bool) (tgt : Addr) :
    exec (.update pc rd pd tgt) s = .next (s.silent.setEngine (updateEngine config e pc rd pd)) :=
  onEngine_some h _

theorem exec_predict_none (h : s.engine = none) (pc : Addr) :
    exec (.predict pc) s = .refused .beforeFirstReset :=
  onEngine_none h _

theorem exec_update_none (h : s.engine = none) (pc : Addr) (rd pd : Bool) (tgt : Addr) :
    exec (.update pc rd pd tgt) s = .refused .beforeFirstReset :=
  onEngine_none h _

/-- Everything a command that answers a next state can have done. -/
theorem exec_cases {i : Instr} (h : exec i s = .next t) :
    (∃ pc cls tgt, i = .track pc cls tgt ∧ t = s.silent) ∨
    (∃ pc e, i = .predict pc ∧ s.engine = some e ∧ t = s.answer (prediction config e pc)) ∨
    (∃ pc rd pd tgt e, i = .update pc rd pd tgt ∧ s.engine = some e
      ∧ t = s.silent.setEngine (updateEngine config e pc rd pd)) ∨
    (i = .reset ∧ t = s.silent.setEngine Engine.reset) := by
  cases i with
  | track pc cls tgt =>
    rw [exec_track] at h
    exact .inl ⟨pc, cls, tgt, rfl, (Host.Outcome.next.inj h).symm⟩
  | reset =>
    rw [exec_reset] at h
    exact .inr (.inr (.inr ⟨rfl, (Host.Outcome.next.inj h).symm⟩))
  | predict pc =>
    cases he : s.engine with
    | none => simp [exec_predict_none he] at h
    | some e =>
      rw [exec_predict he] at h
      exact .inr (.inl ⟨pc, e, rfl, rfl, (Host.Outcome.next.inj h).symm⟩)
  | update pc rd pd tgt =>
    cases he : s.engine with
    | none => simp [exec_update_none he] at h
    | some e =>
      rw [exec_update he] at h
      exact .inr (.inr (.inl ⟨pc, rd, pd, tgt, e, rfl, rfl, (Host.Outcome.next.inj h).symm⟩))

/-- The only stop of a command, and when (70_reset_and_hazards.md R242). -/
theorem exec_refused {i : Instr} {r : Refusal} (h : exec i s = .refused r) :
    r = .beforeFirstReset ∧ s.engine = none ∧
      ((∃ pc, i = .predict pc) ∨ ∃ pc rd pd tgt, i = .update pc rd pd tgt) := by
  cases i with
  | track pc cls tgt => simp [exec_track] at h
  | reset => simp [exec_reset] at h
  | predict pc =>
    cases he : s.engine with
    | none =>
      rw [exec_predict_none he] at h
      exact ⟨(Host.Outcome.refused.inj h).symm, rfl, .inl ⟨pc, rfl⟩⟩
    | some e => simp [exec_predict he] at h
  | update pc rd pd tgt =>
    cases he : s.engine with
    | none =>
      rw [exec_update_none he] at h
      exact ⟨(Host.Outcome.refused.inj h).symm, rfl, .inr ⟨pc, rd, pd, tgt, rfl⟩⟩
    | some e => simp [exec_update he] at h

/-- A command's effect does not depend on the last answer: PREDICT leaves no trace (42_predict.md
R173). -/
theorem exec_of_same {s t : State} (he : t.engine = s.engine) (hi : t.input = s.input) (i : Instr) :
    exec i t = exec i s := by
  obtain ⟨e, inp, r⟩ := s
  obtain ⟨e', inp', r'⟩ := t
  obtain rfl : e' = e := he
  obtain rfl : inp' = inp := hi
  cases i <;> cases e' <;> rfl

/-- After a RESET every command completes. -/
theorem exec_completes (h : s.engine.isSome = true) (i : Instr) :
    ∃ t, exec i s = .next t ∧ t.engine.isSome = true := by
  obtain ⟨e, he⟩ := Option.isSome_iff_exists.mp h
  cases i with
  | track _ _ _ => exact ⟨_, rfl, h⟩
  | predict pc => exact ⟨_, exec_predict he pc, h⟩
  | update pc rd pd tgt => exact ⟨_, exec_update he pc rd pd tgt, rfl⟩
  | reset => exact ⟨_, rfl, rfl⟩

/-- A command never touches what the host has still to present. -/
theorem exec_input {i : Instr} (h : exec i s = .next t) : t.input = s.input := by
  rcases exec_cases h with ⟨_, _, _, -, rfl⟩ | ⟨_, _, -, -, rfl⟩ | ⟨_, _, _, _, _, -, -, rfl⟩ | ⟨-, rfl⟩
    <;> rfl

/-- A command keeps the canonical form of the tables. -/
theorem exec_wf {i : Instr} (hs : s.Wf) (h : exec i s = .next t) : t.Wf := by
  rcases exec_cases h with ⟨_, _, _, -, rfl⟩ | ⟨_, _, -, -, rfl⟩ | ⟨_, _, _, _, e, -, he, rfl⟩ | ⟨-, rfl⟩
  · exact hs
  · exact hs
  · intro f hf
    obtain rfl : updateEngine config e _ _ _ = f := by simpa using hf
    exact update_wf rfl (hs e (by simp [he])) _ _ _
  · intro f hf
    obtain rfl : Engine.reset = f := by simpa using hf
    exact reset_engine_wf config

/-! ## Steps -/

theorem step_command {i : Instr} (h : s.command = some i) : step s = exec i s.advance := by
  simp [step, h]

theorem step_idle (h : s.command = none) : step s = .next s.advance.silent := by
  simp [step, h]

/-- Everything a step that answers a next state can have done. -/
theorem step_cases (h : step s = .next t) :
    (s.command = none ∧ t = s.advance.silent) ∨ ∃ i, s.command = some i ∧ exec i s.advance = .next t := by
  cases hc : s.command with
  | none => rw [step_idle hc] at h; exact .inl ⟨rfl, (Host.Outcome.next.inj h).symm⟩
  | some i => rw [step_command hc] at h; exact .inr ⟨i, rfl, h⟩

/-- Presenting a word makes the next step run the command it decodes to. -/
theorem step_present (s : State) (w : CmdWord) :
    step (s.present (PortIn.ofWord w)) = exec (decode w) s := by
  rw [step_command (i := decode w) rfl, present_advance]

/-! ## Several commands -/

@[simp] theorem andThen_next (t : State) (f : State → Host.Outcome State Fault Refusal) :
    andThen (.next t) f = f t := rfl

@[simp] theorem andThen_refused (r : Refusal) (f : State → Host.Outcome State Fault Refusal) :
    andThen (.refused r) f = .refused r := rfl

theorem execAll_nil (s : State) : execAll [] s = .next s := rfl

theorem execAll_cons (i : Instr) (rest : List Instr) (s : State) :
    execAll (i :: rest) s = andThen (exec i s) (execAll rest) := rfl

/-- A run that ends in a next state passed through one after its first command. -/
theorem execAll_cons_next {i : Instr} {rest : List Instr} (h : execAll (i :: rest) s = .next t) :
    ∃ u, exec i s = .next u ∧ execAll rest u = .next t := by
  rw [execAll_cons] at h
  cases hu : exec i s with
  | next u => exact ⟨u, rfl, by simpa [hu] using h⟩
  | fault r => exact nomatch r
  | refused r => simp [hu] at h

/-- BRANCH is UPDATE with the engine's own answer (30_encoding.md R93). -/
theorem exec_branch (h : s.engine = some e) (pc : Addr) (rd : Bool) (tgt : Addr) :
    execBranch pc rd tgt s
      = .next (s.silent.setEngine (updateEngine config e pc rd (prediction config e pc))) := by
  unfold execBranch
  rw [exec_predict h, andThen_next, exec_update (s := s.answer _) (by simpa using h)]
  rfl

/-- The engine after one BRANCH. -/
def afterBranch (pc : Addr) (d : Bool) (e : Engine) : Engine :=
  updateEngine config e pc d (prediction config e pc)

/-- Repeated BRANCHes complete and repeat `afterBranch`. -/
theorem exec_branches (pc : Addr) (d : Bool) (tgt : Addr) (n : Nat) :
    ∀ {s : State} {e : Engine}, s.engine = some e →
      ∃ t, execBranches pc d tgt n s = .next t ∧ t.engine = some ((afterBranch pc d)^[n] e) := by
  induction n with
  | zero => intro s e he; exact ⟨s, rfl, he⟩
  | succ n ih =>
    intro s e he
    obtain ⟨t, h1, h2⟩ := ih (setEngine_engine s.silent (afterBranch pc d e))
    exact ⟨t, by unfold execBranches; rw [exec_branch he]; exact h1, h2⟩

end Sys2Proof.Machine
end

