-- ==== Sys2Proof/Laws/PerInstr.lean ====
section
/-! SUPPORT. Statements made for each command: the word it encodes to matches its row of the opcode
table (opcode_table.json, "match" under "mask"; 30_encoding.md R82). -/

namespace Sys2Proof.Laws.TableMatch

/-- The row's "match" value; every row's "mask" is 3. -/
def matchValue : Instr → Nat
  | .track _ _ _ => 0
  | .predict _ => 1
  | .update _ _ _ _ => 2
  | .reset => 3

/-- The encoded word, under the mask of the command's row, is the row's match value. -/
def Statement (i : Instr) : Prop := (encode i).toNat % 4 = matchValue i

theorem opField_toNat (w : CmdWord) : w.toNat % 4 = (opField w).toNat := by simp [opField]

theorem track (pc : Addr) (cls : OpClass) (tgt : Addr) : Statement (.track pc cls tgt) := by
  simp [Statement, matchValue, encode, opField_toNat]

theorem predict (pc : Addr) : Statement (.predict pc) := by
  simp [Statement, matchValue, encode, opField_toNat]

theorem update (pc : Addr) (rd pd : Bool) (tgt : Addr) : Statement (.update pc rd pd tgt) := by
  simp [Statement, matchValue, encode, opField_toNat]

theorem reset : Statement .reset := by
  simp [Statement, matchValue, encode, opField_toNat]

end Sys2Proof.Laws.TableMatch
end

