-- ==== Sys2Proof/Laws/Training.lean ====
section
/-! SUPPORT. Repeated BRANCHes of one address in one direction (43_update.md R196): once both histories
hold that direction only, the indices are fixed, and the seven counters of the address move as a small
machine of their own. -/

namespace Sys2Proof.Machine

/-- A history that holds one direction 21 times. -/
def fullHistory (d : Bool) : BitVec 21 := if d then BitVec.allOnes 21 else 0

theorem fullHistory_bit (d : Bool) {k : Nat} (h : k < 21) : (fullHistory d).getLsbD k = d := by
  cases d
  · simp [fullHistory]
  · rw [fullHistory, if_pos rfl, BitVec.getLsbD_allOnes]; simpa using h

/-- Both histories an address reads are full of one direction (R196 (i)). -/
def Settled (pc : Addr) (d : Bool) (e : Engine) : Prop :=
  e.ghr = fullHistory d ∧ e.readBht (localIndex config pc) = fullHistory d

variable {pc : Addr} {d : Bool} {e f : Engine}

/-- After 21 BRANCHes the histories are full. -/
theorem settled_after (pc : Addr) (d : Bool) (e : Engine) {n : Nat} (hn : 21 ≤ n) :
    Settled pc d ((afterBranch pc d)^[n] e) := by
  have bits : ∀ n k, k < n → k < 21 → ((afterBranch pc d)^[n] e).ghr.getLsbD k = d ∧
      (((afterBranch pc d)^[n] e).readBht (localIndex config pc)).getLsbD k = d := by
    intro n
    induction n with
    | zero => intro k h; omega
    | succ n ih =>
      intro k h1 h2
      rw [Function.iterate_succ_apply', afterBranch, update_ghr, update_readBht, if_pos rfl,
        getLsbD_shiftIn, getLsbD_shiftIn]
      by_cases h0 : k = 0
      · simp [h0]
      · simp only [h0, h2, decide_true, Bool.true_and, if_false]
        exact ih (k - 1) (by omega) (by omega)
  constructor <;> apply BitVec.eq_of_getLsbD_eq <;> intro k hk <;> rw [fullHistory_bit d hk]
  · exact (bits n k (by omega) hk).1
  · exact (bits n k (by omega) hk).2

/-- Full histories stay full. -/
theorem settled_step (he : Settled pc d e) : Settled pc d (afterBranch pc d e) := by
  unfold Settled afterBranch
  rw [update_ghr, update_readBht, if_pos rfl, he.1, he.2]
  cases d <;> decide

/-- With full histories every index is the same from then on. -/
theorem settled_entry (he : Settled pc d e) (hf : Settled pc d f) (T : Tbl) :
    (snapshot config e pc).entry T = (snapshot config f pc).entry T := by
  cases T <;> simp only [snapshot, Lookup.entry, lookup_bi, lookup_gi1, lookup_gi2, lookup_pi1,
    lookup_pi2, lookup_lh, lookup_t1i, lookup_t2i, he.1, he.2, hf.1, hf.2]

/-- So the next lookup reads the counters the UPDATE left at this lookup's entries. -/
theorem settled_counter (he : Settled pc d e) (T : Tbl) :
    (snapshot config (afterBranch pc d e) pc).counter T
      = (afterBranch pc d e).read config T ((snapshot config e pc).entry T) := by
  rw [snapshot, lookup_counter]
  congr 1
  exact settled_entry (settled_step he) he T

/-- What one BRANCH does to the seven counters of a settled address. -/
structure Trained (r r' : Lookup) (d : Bool) : Prop where
  cb : r'.cb = if (r.final != d) || r.bim == d then push config r.cb d else r.cb
  cg1 : r'.cg1 = if gskewGate r (r.final != d) && (r.gskew != d || r.vg1 == d)
    then push config r.cg1 d else r.cg1
  cg2 : r'.cg2 = if gskewGate r (r.final != d) && (r.gskew != d || r.vg2 == d)
    then push config r.cg2 d else r.cg2
  cp1 : r'.cp1 = if pskewGate r (r.final != d) && (r.pskew != d || r.vp1 == d)
    then push config r.cp1 d else r.cp1
  cp2 : r'.cp2 = if pskewGate r (r.final != d) && (r.pskew != d || r.vp2 == d)
    then push config r.cp2 d else r.cp2
  ct1 : r'.ct1 = if r.sel2bc && (r.gskew != r.bim)
    then tournamentMove config r.ct1 (r.gskew == d) else r.ct1
  ct2 : r'.ct2 = if r.comp != r.pskew then tournamentMove config r.ct2 (r.comp == d) else r.ct2

theorem settled_trained (he : Settled pc d e) :
    Trained (snapshot config e pc) (snapshot config (afterBranch pc d e) pc) d := by
  have hw : (prediction config e pc != d) = ((snapshot config e pc).final != d) := rfl
  refine ⟨(settled_counter he .bim).trans ?_, (settled_counter he .gb1).trans ?_,
    (settled_counter he .gb2).trans ?_, (settled_counter he .pb1).trans ?_,
    (settled_counter he .pb2).trans ?_, (settled_counter he .t1).trans ?_,
    (settled_counter he .t2).trans ?_⟩ <;> unfold afterBranch
  · rw [update_bim, hw]; simp only [Lookup.entry, true_and]; congr 1
  · rw [update_gb1, hw]; simp only [Lookup.entry, true_and]; congr 1
  · rw [update_gb2, hw]; simp only [Lookup.entry, true_and]; congr 1
  · rw [update_pb1, hw]; simp only [Lookup.entry, true_and]; congr 1
  · rw [update_pb2, hw]; simp only [Lookup.entry, true_and]; congr 1
  · rw [update_t1]; simp only [Lookup.entry, true_and, Bool.and_eq_true, bne_iff_ne]; congr 1
  · rw [update_t2]; simp only [Lookup.entry, true_and, bne_iff_ne]; congr 1

/-- A majority for `d` survives votes that change only toward `d`. -/
theorem maj3_mono {a b c a' b' c' d : Bool} (h1 : a = d → a' = d) (h2 : b = d → b' = d)
    (h3 : c = d → c' = d) (h : maj3 a b c = d) : maj3 a' b' c' = d := by
  revert a b c a' b' c' d; decide

/-- The votes of a settled address change only toward `d` (R196 (ii)). -/
theorem settled_votes (he : Settled pc d e) :
    ((snapshot config e pc).bim = d → (snapshot config (afterBranch pc d e) pc).bim = d) ∧
    ((snapshot config e pc).gskew = d → (snapshot config (afterBranch pc d e) pc).gskew = d) ∧
    ((snapshot config e pc).pskew = d → (snapshot config (afterBranch pc d e) pc).pskew = d) := by
  have tr := settled_trained he
  have mono : ∀ (k : Counter) (g : Bool), vote config k = d →
      vote config (if g then push config k d else k) = d := by
    intro k g h
    cases g
    · exact h
    · exact vote_push_of_vote h
  have hb : (snapshot config e pc).bim = d → (snapshot config (afterBranch pc d e) pc).bim = d :=
    fun h => by rw [snapshot, lookup_bim]; exact tr.cb ▸ mono _ _ h
  refine ⟨hb, maj3_mono (fun h => ?_) (fun h => ?_) hb, maj3_mono (fun h => ?_) (fun h => ?_) hb⟩
  · exact (congrArg (vote config) tr.cg1).trans (mono _ _ h)
  · exact (congrArg (vote config) tr.cg2).trans (mono _ _ h)
  · exact (congrArg (vote config) tr.cp1).trans (mono _ _ h)
  · exact (congrArg (vote config) tr.cp2).trans (mono _ _ h)

end Sys2Proof.Machine
end

