-- ==== Sys2Proof/Tests/Slice0.lean ====
section
/-! SUPPORT. The model's own tests. Expected values are those of the spec: 95_test_vectors.md (named at each
test), the encodings of 30_encoding.md R81 and the worked examples of the rules. After them, one witness
for every statement that has hypotheses, with one for each clause. -/

namespace Sys2Proof.Tests

open Sys2Proof Sys2Proof.Machine Sys2Proof.Safety Sys2Proof.Claims

/-! ## Well-formedness: an ill-formed parameter record for each check (00_scope.md R7). Commands have no
check: every operand value is legal (30_encoding.md R82, R83). -/

theorem test_wf_config : config.wf = true := by decide
theorem test_wf_refuses_pht_one : { config with phtIdxLen := 1, localPhtIdxLen := 1 }.wf = false := by decide
theorem test_wf_refuses_t1_one : { config with t1IdxLen := 1 }.wf = false := by decide
theorem test_wf_refuses_unequal_pht : { config with localPhtIdxLen := 14 }.wf = false := by decide
theorem test_wf_refuses_wide_pht : { config with phtIdxLen := 27, localPhtIdxLen := 27 }.wf = false := by decide
theorem test_wf_refuses_wide_t1 : { config with t1IdxLen := 27 }.wf = false := by decide
theorem test_wf_refuses_ctrMax_zero : { config with ctrMax := 0 }.wf = false := by decide
theorem test_wf_refuses_ctrMax_four : { config with ctrMax := 4 }.wf = false := by decide
theorem test_wf_refuses_tctrMax_zero : { config with tctrMax := 0 }.wf = false := by decide
theorem test_wf_refuses_tctrMax_four : { config with tctrMax := 4 }.wf = false := by decide
theorem test_wf_every_command : (Instr.update 1 true false 0xFFFFFFFF).wf = true ∧ Instr.reset.wf = true ∧
    (Instr.track 3 15 1).wf = true ∧ (Instr.predict 0xFFFFFFFF).wf = true := by decide

/-- R8, R39: 425,984 bits of counters and 512,021 bits in all. -/
theorem test_storage : config.counterBits = 425984 ∧ config.stateBits = 512021 := by decide

/-! ## Decoding: words written out bit by bit from R81, `cls tgt pd rd pc op` from the top (V5) -/

theorem test_decode_track :
    decode (0b0011#4 ++ 0b00000000010000000000001010000000#32 ++ 0b0#1 ++ 0b0#1
      ++ 0b00000000010000000000001000000000#32 ++ 0b00#2)
    = .track 0x00400200 3 0x00400280 := by decide

theorem test_decode_predict :
    decode (0b0000#4 ++ 0b00000000000000000000000000000000#32 ++ 0b0#1 ++ 0b0#1
      ++ 0b00000000010000000000000110100101#32 ++ 0b01#2)
    = .predict 0x004001A5 := by decide

theorem test_decode_update :
    decode (0b0000#4 ++ 0b11011110101011011011111011101111#32 ++ 0b0#1 ++ 0b1#1
      ++ 0b00000000010000000000000110100101#32 ++ 0b10#2)
    = .update 0x004001A5 true false 0xDEADBEEF := by decide

theorem test_decode_reset :
    decode (0b0000#4 ++ 0b00000000000000000000000000000000#32 ++ 0b0#1 ++ 0b0#1
      ++ 0b00000000000000000000000000000000#32 ++ 0b11#2)
    = .reset := by decide

/-- V5: ignored fields set, the last row and the note under the table. -/
theorem test_decode_ignores :
    decode 0xFFFFFFFFFFFFFFFFFE = .update 0xFFFFFFFF true true 0xFFFFFFFF ∧
    decode 0xFFFFFFFFFC01000695 = .predict 0x004001A5 ∧
    decode 0xFFFFFFFFFFFFFFFFFF = .reset ∧ decode 0 = .track 0 0 0 := by decide

/-- V5: the words the encoder writes. -/
theorem test_encode :
    encode .reset = 0x000000000000000003 ∧ encode (.track 0x400200 3 0x400280) = 0x300400280001000800 ∧
    encode (.predict 0xFFFFFFFF) = 0x0000000003FFFFFFFD ∧
    encode (.update 0x004001A5 false true 0) = 0x000000000801000696 := by decide

theorem test_decodeTableWord :
    decodeTableWord 72 0x000000000C01000696 = some (.update 0x004001A5 true true 0) ∧
    decodeTableWord 8 3 = some .reset ∧ decodeTableWord 80 3 = none := by decide

/-! ## The functions (V1 to V4) -/

/-- V1, the rows with bit 20 set among them. -/
theorem test_shiftIn :
    shiftIn (0x0FFFFF : History) true = 0x1FFFFF ∧ shiftIn (0x100000 : History) false = 0 ∧
    shiftIn (0x100000 : History) true = 1 ∧ shiftIn (0x1FFFFF : History) false = 0x1FFFFE ∧
    shiftIn (0x155555 : History) false = 0x0AAAAA ∧ shiftIn (0x0AAAAA : History) true = 0x155555 := by
  decide

/-- V1: the whole table of counters. -/
theorem test_counters :
    [0, 1, 2, 3].map (fun k : Counter => ((push config k true).toNat, (push config k false).toNat,
      vote config k, selectsFirst config k))
    = [(1, 0, false, true), (2, 0, false, true), (3, 1, true, false), (3, 2, true, false)] := by decide

/-- V2, width 15. -/
theorem test_hashes :
    [0x0001, 0x4000, 0x4001, 0x7FFF, 0x3FFF, 0x1234, 0x5A5A, 0x6940].map
      (fun x : BitVec 15 => (hashH x, hashHinv x))
    = [(0x4000, 0x0002), (0x6000, 0x0001), (0x2000, 0x0003), (0x3FFF, 0x7FFE), (0x5FFF, 0x7FFF),
       (0x091A, 0x2468), (0x6D2D, 0x34B5), (0x74A0, 0x5280)] := by decide

/-- V2, width 2, where bit `n - 2` is bit 0. -/
theorem test_hashes_width_two :
    [0, 1, 2, 3].map (fun x : BitVec 2 => (hashH x, hashHinv x))
    = [(0, 0), (2, 3), (3, 1), (1, 2)] := by decide

/-- V3. -/
theorem test_bank_indices :
    [(0x1234, 0x5A5A), (0x4000, 0x0001), (0x0069, 0x1A40), (0x0003, 0x6940), (0x7FFF, 0x697F)].map
      (fun v : BitVec 15 × BitVec 15 =>
        (roleIndex config.roleB1 v.1 v.2, roleIndex config.roleB2 v.1 v.2, roleIndex config.roleT1 v.1 v.2))
    = [(0x67F5, 0x2F9B, 0x67F5), (0x6003, 0x2002, 0x6003), (0x6EF4, 0x74DD, 0x6EF4),
       (0x7BC1, 0x1282, 0x7BC1), (0x047E, 0x12FE, 0x047E)] := by decide

/-- V4, row 8 with a history of 22 bits. -/
theorem test_vectors :
    (vectorLow 0x004001A5 (0x155555 : History) 21 15, vectorHigh 0x004001A5 (0x155555 : History) 21 15)
      = (0x5555, 0x696A) ∧
    (vectorLow 0x12345678 (0x0ABCDE : History) 21 15, vectorHigh 0x12345678 (0x0ABCDE : History) 21 15)
      = (0x3CDE, 0x1E15) ∧
    (vectorLow 0x004001A5 (0x3FFFFF : BitVec 22) 21 15, vectorHigh 0x004001A5 (0x3FFFFF : BitVec 22) 21 15)
      = (0x7FFF, 0x697F) := by decide

/-! ## Commands -/

/-- The address of V6 and V7. -/
def addr : Addr := 0x004001A5

/-- The seven entries that `addr` reaches with both histories 0 (V6). -/
def entries : List (Tbl × Nat) :=
  [(.bim, 0x01A5), (.gb1, 0x3BC0), (.gb2, 0x5280), (.pb1, 0x3BC0), (.pb2, 0x5280), (.t1, 0x3BC0),
   (.t2, 0x01A5)]

/-- The reset engine with those entries set, in the order `cb cg1 cg2 cp1 cp2 ct1 ct2`. -/
def engineOf (ks : List Nat) : Engine :=
  (entries.zip ks).foldl (fun e x => e.write config x.1.1 x.1.2 (BitVec.ofNat 2 x.2)) Engine.reset

/-- Those entries read back. -/
def entriesOf (e : Engine) : List Nat := entries.map fun x => (e.read config x.1 x.2).toNat

/-- A machine with that engine. -/
def machine (ks : List Nat) : State := { State.reset with engine := some (engineOf ks) }

/-- The next state of an outcome. -/
def nextOf (o : Host.Outcome State Fault Refusal) : Option State :=
  match o with
  | .next t => some t
  | .fault _ => none
  | .refused _ => none

/-- PREDICT's answer, and whether it left the engine alone. -/
def answerOf (ks : List Nat) : Option (Option Bool × Bool) :=
  (nextOf (exec (.predict addr) (machine ks))).map fun t => (t.resp, t.engine == some (engineOf ks))

/-- V6, second table, the fourteen rows in order. -/
theorem test_predict :
    ([[2,2,2,2,2,2,2], [1,1,1,1,1,2,2], [0,3,3,0,0,1,1], [0,3,3,0,0,2,1], [0,3,3,0,0,1,2],
      [3,0,0,0,0,0,0], [3,0,0,0,0,3,0], [3,0,0,0,0,0,3], [1,3,0,0,3,0,0], [2,3,0,0,3,0,3],
      [0,3,0,3,3,1,2], [1,2,3,1,2,1,1], [3,3,3,3,3,0,0], [0,0,0,0,0,3,3]]).map answerOf
    = [true, false, true, false, false, false, true, false, false, true, true, true, true, false].map
        (fun b => some (some b, true)) := by decide

/-- The seven entries, GHR and BHT[0x1A5] after one UPDATE of `addr`, and the response. -/
def updated (ks : List Nat) (rd pd : Bool) : Option (List Nat × Nat × Nat × Option Bool) :=
  (nextOf (exec (.update addr rd pd 0) (machine ks))).bind fun t =>
    t.engine.map fun e => (entriesOf e, e.ghr.toNat, (e.readBht 0x1A5).toNat, t.resp)

/-- V7, rows 2, 3, 5, 6, 7, 8, 10, 11, 12, 13, 18, 19, 21 and 22. -/
theorem test_update :
    [updated [2,2,2,2,2,2,2] false true, updated [0,2,2,2,2,2,1] false false,
     updated [3,2,1,2,2,0,0] true true, updated [3,2,1,2,2,0,0] false true,
     updated [1,3,3,0,0,1,2] true false, updated [1,3,3,0,0,1,2] false false,
     updated [1,3,3,0,0,1,0] true true, updated [2,0,0,3,1,3,1] true true,
     updated [2,0,0,3,1,3,1] false true, updated [2,2,2,2,1,2,3] true true,
     updated [1,2,3,1,2,1,1] false true, updated [1,0,3,3,0,0,2] true false,
     updated [2,2,2,2,2,2,2] true false, updated [2,2,2,2,2,2,2] false false]
    = [some ([1,1,1,1,1,2,2], 0, 0, none), some ([0,2,2,2,2,3,0], 0, 0, none),
       some ([3,3,1,2,2,0,0], 1, 1, none), some ([2,1,0,1,1,0,0], 0, 0, none),
       some ([2,3,3,1,1,1,1], 1, 1, none), some ([0,3,3,0,0,1,3], 0, 0, none),
       some ([1,3,3,0,0,0,0], 1, 1, none), some ([3,0,0,3,1,3,1], 1, 1, none),
       some ([1,0,0,2,0,2,1], 0, 0, none), some ([3,2,2,3,1,2,3], 1, 1, none),
       some ([0,1,2,0,2,2,2], 0, 0, none), some ([2,1,3,3,1,0,2], 1, 1, none),
       some ([3,3,3,3,3,2,2], 1, 1, none), some ([2,2,2,1,1,2,2], 0, 0, none)] := by decide

/-- R198, and the PREDICT after it: one port cycle with the word of `UPDATE 0x004001A5, N, T`. -/
theorem test_update_word :
    nextOf (step (State.reset.withFetchWord 72 0x000000000801000696))
    = some ⟨some ⟨[(0x1A5, 1)], [(0x3BC0, 1)], [(0x5280, 1)], [(0x3BC0, 1)], [(0x5280, 1)], [], [], [], 0⟩,
        [], none⟩ ∧
    answerOf [1, 1, 1, 1, 1, 2, 2] = some (some false, true) := by decide

/-- V9. -/
theorem test_track_word :
    nextOf (step ((machine [0,3,3,0,0,1,1]).withFetchWord 72 0x300400280001000800))
    = some (machine [0,3,3,0,0,1,1]) := by decide

theorem test_track_before_reset : nextOf (exec (.track 1 2 3) State.powerOn) = some State.powerOn := by
  decide

/-- V9. -/
theorem test_reset_word :
    nextOf (step ((machine [0,3,3,0,0,1,1]).withFetchWord 72 3)) = some State.reset := by decide

theorem test_reset_before_reset : nextOf (exec .reset State.powerOn) = some State.reset := by decide

/-- R90, R224: `rst` wins over a command. -/
theorem test_rst_wins :
    nextOf (step { State.powerOn with input := [{ rst := true, cmdValid := true, cmd := 1 }] })
    = some State.reset := by decide

/-- R242. -/
theorem test_predict_before_reset :
    step { State.powerOn with input := [PortIn.ofInstr (.predict 0)] } = .refused .beforeFirstReset := rfl

/-! ## Text (R92, R93) -/

theorem test_text_commands :
    readLine "UPDATE  0x004001A5, N,T ; worked example".toList
      = some (.command (.update 0x004001A5 false true 0)) ∧
    readLine "TRACK 0x00400200, 3, 0x00400280".toList
      = some (.command (.track 0x00400200 3 0x00400280)) ∧
    readLine "RESET".toList = some (.command .reset) ∧
    readLine "PREDICT 4194725 ; decimal".toList = some (.command (.predict 0x004001A5)) := by decide

theorem test_text_others :
    readLine "BRANCH 0x1000, T".toList = some (.branch 0x1000 true 0) ∧
    readLine "  ; only a comment".toList = some .empty ∧
    readLine "PREDICT".toList = none ∧ readLine "TRACK 0, 16".toList = none ∧
    readLine "UPDATE 0x0, 1, 0".toList = none ∧ readLine "STEP 0".toList = none := by decide

/-! ## Witnesses: concrete states and operands that meet the hypotheses of each statement -/

/-- The lookup UPDATE makes for `addr`. -/
def snap (ks : List Nat) : Lookup := lookup config (engineOf ks) addr config.phtIdxLen

/-- Every statement that supposes only a machine after a RESET. -/
theorem witness_afterReset :
    (machine [0,3,3,0,0,1,1]).engine = some (engineOf [0,3,3,0,0,1,1]) ∧
    (machine [0,3,3,0,0,1,1]).engine.isSome = true ∧ State.reset.engine = some Engine.reset :=
  ⟨rfl, rfl, rfl⟩

theorem witness_EncodeOfDecodeIsIdentity :
    (opField 0xF00000001000000010#72 = 0b00#2 ∧ rdField 0xF00000001000000010#72 = false
      ∧ pdField 0xF00000001000000010#72 = false) ∧
    (opField 0x0000000003FFFFFFFD#72 = 0b01#2 ∧ (0x0000000003FFFFFFFD#72).toNat < 2 ^ 34) ∧
    (opField 0x0FFFFFFFFFFFFFFFFE#72 = 0b10#2 ∧ (0x0FFFFFFFFFFFFFFFFE#72).toNat < 2 ^ 68) ∧
    (opField 3#72 = 0b11#2 ∧ (3#72).toNat < 4) := by decide

theorem witness_OperandsStandAtTheirBits :
    (0xF00000001000000010#72).toNat % 4 = 0 ∧ (0x0000000003FFFFFFFD#72).toNat % 4 = 1 ∧
    (0xFFFFFFFFFFFFFFFFFE#72).toNat % 4 = 2 ∧ (0xFFFFFFFFFFFFFFFFFF#72).toNat % 4 = 3 := by decide

theorem witness_IgnoredFieldsHaveNoEffect :
    (0xFFFFFFFFFC01000695#72 ≠ 0x000000000001000695#72 ∧
      opField 0xFFFFFFFFFC01000695#72 = 0b01#2 ∧ opField 0x000000000001000695#72 = 0b01#2 ∧
      pcField 0xFFFFFFFFFC01000695#72 = pcField 0x000000000001000695#72) ∧
    (opField 0xFFFFFFFFF801000696#72 = 0b10#2 ∧ opField 0x000000000801000696#72 = 0b10#2 ∧
      pcField 0xFFFFFFFFF801000696#72 = pcField 0x000000000801000696#72 ∧
      rdField 0xFFFFFFFFF801000696#72 = rdField 0x000000000801000696#72 ∧
      pdField 0xFFFFFFFFF801000696#72 = pdField 0x000000000801000696#72) ∧
    opField 0xFFFFFFFFFFFFFFFFFC#72 = opField 0#72 ∧ opField 0xFFFFFFFFFFFFFFFFFF#72 = opField 3#72 := by
  decide

theorem witness_StepRunsThePresentedCommand :
    (State.reset.withFetchWord 72 1).input = { rst := false, cmdValid := true, cmd := 1#72 } :: [] ∧
    decode 1#72 = .predict 0 := by decide

theorem witness_ResetPinActsAsReset :
    ({ rst := true, cmdValid := true, cmd := 1 } : PortIn).rst = true ∧ opField 3#72 = 0b11#2 := by decide

theorem witness_IdleCycleChangesNothing :
    (∀ p ∈ State.reset.input.head?, p.rst = false ∧ p.cmdValid = false) ∧
    ∀ p ∈ [({ rst := false, cmdValid := false, cmd := 3 } : PortIn)].head?,
      p.rst = false ∧ p.cmdValid = false := by decide

theorem witness_OnlyPredictIsAnswered :
    nextOf (exec (.predict addr) State.reset) = some { State.reset with resp := some true } ∧
    nextOf (exec (.track 0 0 0) State.reset) = some State.reset := by decide

theorem witness_OnlyUpdateAndResetWrite :
    (writesNothing (.track 0 0 0) = true ∧ (nextOf (exec (.track 0 0 0) State.reset)).isSome = true) ∧
    (nextOf (exec (.update addr true true 0) State.reset)).any
      (fun t => t.engine != State.reset.engine) = true := by decide

/-- By the pin before the first RESET, and by the word of an UPDATE. -/
theorem witness_OnlyUpdateAndResetCyclesWrite :
    (nextOf (step { State.powerOn with input := [{ rst := true, cmdValid := false, cmd := 0 }] })).any
      (fun t => t.engine != State.powerOn.engine) = true ∧
    (nextOf (step { State.reset with input := [PortIn.ofInstr (.update addr true true 0)] })).any
      (fun t => t.engine != State.reset.engine) = true := by decide

theorem witness_ColdStartPredictsTaken : nextOf (exec .reset State.powerOn) = some State.reset := by decide

theorem witness_EveryIndexIsInRange :
    (15 = config.phtIdxLen ∧ 15 = config.localPhtIdxLen) ∧
    (lookup config Engine.reset 0xFFFFFFFF 15).bi = 2 ^ 15 - 1 := by decide

theorem witness_HashLaws_HashFormulas : 2 ≤ 2 ∧ 2 ≤ 15 := by decide

theorem witness_UnanimousVotesDecide :
    (∀ T ∈ [Tbl.bim, .gb1, .gb2, .pb1, .pb2], (((engineOf [1,0,1,0,1,0,3]).read config T
      ((lookup config (engineOf [1,0,1,0,1,0,3]) addr config.localPhtIdxLen).entry T)).toNat > 1
        ↔ false = true)) ∧
    (∀ T ∈ [Tbl.bim, .gb1, .gb2, .pb1, .pb2], (((engineOf [2,3,2,3,2,0,3]).read config T
      ((lookup config (engineOf [2,3,2,3,2,0,3]) addr config.localPhtIdxLen).entry T)).toNat > 1
        ↔ true = true)) := by decide

theorem witness_OnlyLowFifteenAddressBitsMatter :
    (0xFFFF81A5 : Addr) ≠ addr ∧ (0xFFFF81A5 : Addr).toNat % 2 ^ 15 = addr.toNat % 2 ^ 15 := by decide

/-- Two different engines that agree on every entry `addr` reaches. -/
theorem witness_OnlyAddressedEntriesAreRead :
    let e := engineOf [0,3,3,0,0,1,1]
    let f := e.write config .gb1 0 3
    e ≠ f ∧ e.ghr = f.ghr ∧ e.readBht (addr.toNat % 2 ^ 12) = f.readBht (addr.toNat % 2 ^ 12) ∧
    ∀ T ∈ Tbl.all, e.read config T ((lookup config e addr 15).entry T)
      = f.read config T ((lookup config e addr 15).entry T) := by decide

theorem witness_PredictAndTrackArePure :
    State.reset.engine.isSome = true ∧
    ∀ i ∈ [Instr.predict addr, .track 0 1 2, .predict 7], writesNothing i = true := by decide

/-- The three clauses. -/
theorem witness_UpdateMovesTournament2 :
    (snap [2,2,2,2,2,2,2]).comp = (snap [2,2,2,2,2,2,2]).pskew ∧
    ((snap [1,3,3,0,0,1,0]).comp ≠ (snap [1,3,3,0,0,1,0]).pskew ∧ (snap [1,3,3,0,0,1,0]).comp = true) ∧
    ((snap [1,3,3,0,0,1,3]).comp ≠ (snap [1,3,3,0,0,1,3]).pskew ∧ (snap [1,3,3,0,0,1,3]).comp ≠ false) := by
  decide

/-- The three clauses, the first for each part of the gate. -/
theorem witness_UpdateMovesTournament1 :
    ((snap [2,2,2,2,2,2,2]).sel2bc = false ∧ (snap [3,3,3,3,3,0,0]).gskew = (snap [3,3,3,3,3,0,0]).bim) ∧
    ((snap [0,3,3,3,3,1,0]).sel2bc = true ∧ (snap [0,3,3,3,3,1,0]).gskew ≠ (snap [0,3,3,3,3,1,0]).bim
      ∧ (snap [0,3,3,3,3,1,0]).gskew = true) ∧
    ((snap [2,0,0,3,1,3,1]).sel2bc = true ∧ (snap [2,0,0,3,1,3,1]).gskew ≠ (snap [2,0,0,3,1,3,1]).bim
      ∧ (snap [2,0,0,3,1,3,1]).gskew ≠ true) := by decide

/-- Gate closed; gate open by selection with the majority wrong (`pd = rd` without being `final`) and by a
wrong prediction; the majority right with a bank that agreed and one that did not, each way round. -/
theorem witness_UpdateTrainsGskewBanks :
    (snap [2,2,2,2,2,2,2]).sel2bc = false ∧
    ((snap [3,2,1,2,2,0,0]).sel2bc = true ∧ (snap [3,2,1,2,2,0,0]).selg = true
      ∧ (snap [3,2,1,2,2,0,0]).gskew ≠ false) ∧
    ((snap [3,2,1,2,2,0,0]).gskew = true ∧ (snap [3,2,1,2,2,0,0]).vg1 = true
      ∧ (snap [3,2,1,2,2,0,0]).vg2 ≠ true) ∧
    ((snap [3,1,2,2,2,0,0]).gskew = true ∧ (snap [3,1,2,2,2,0,0]).vg1 ≠ true
      ∧ (snap [3,1,2,2,2,0,0]).vg2 = true) := by decide

theorem witness_UpdateTrainsPskewBanks :
    (snap [3,2,1,2,2,0,0]).sel2bc = true ∧
    ((snap [2,2,2,2,2,2,2]).sel2bc = false ∧ (snap [2,2,2,2,2,2,2]).pskew ≠ false) ∧
    ((snap [2,2,2,2,1,2,3]).sel2bc = false ∧ (snap [2,2,2,2,1,2,3]).pskew = true
      ∧ (snap [2,2,2,2,1,2,3]).vp1 = true ∧ (snap [2,2,2,2,1,2,3]).vp2 ≠ true) ∧
    ((snap [2,2,2,1,2,2,3]).sel2bc = false ∧ (snap [2,2,2,1,2,2,3]).pskew = true
      ∧ (snap [2,2,2,1,2,2,3]).vp1 ≠ true ∧ (snap [2,2,2,1,2,2,3]).vp2 = true) := by decide

/-- Its clauses need a wrong prediction (`pd ≠ rd`), or a right one with the vote `T` or `N` and `rd = T`. -/
theorem witness_UpdateTrainsBimodal :
    (true ≠ false) ∧ (snap [3,2,1,2,2,0,0]).bim = true ∧ (snap [0,3,3,3,3,1,0]).bim ≠ true := by decide

theorem witness_UpdateShiftsBothHistories :
    addr.toNat % 2 ^ 12 = 0x1A5 ∧ (0 : Nat) ≠ addr.toNat % 2 ^ 12 := by decide

theorem witness_UpdateLeavesOtherEntries :
    (0 : Nat) ≠ (snap [2,2,2,2,2,2,2]).entry .gb1 ∧ (0 : Nat) ≠ (snap [2,2,2,2,2,2,2]).li := by decide

/-- The steps in the reverse of BP's order. -/
theorem witness_UpdateStepsCommute :
    (updateSteps config (snap [2,2,2,2,2,2,2]) false true).reverse.Perm
      (updateSteps config (snap [2,2,2,2,2,2,2]) false true) :=
  List.reverse_perm _

theorem witness_CanonicalEnginesAreEqual :
    Engine.Wf config (engineOf [0,3,3,0,0,1,1]) ∧
    engineOf [0,3,3,0,0,1,1]
      = (engineOf [0,3,3,0,0,1,1]).write config .t2 5 2 := by decide

theorem witness_StepKeepsTablesCanonical :
    (machine [0,3,3,0,0,1,1]).Wf ∧
    (nextOf (step ((machine [0,3,3,0,0,1,1]).withFetchWord 72 0x000000000801000696))).isSome = true := by
  decide

/-- Refused: PREDICT before the first RESET. -/
theorem witness_OnlyUseBeforeResetIsRefused :
    step (State.powerOn.withFetchWord 72 1) = .refused .beforeFirstReset ∧
    State.powerOn.engine = none ∧ (State.powerOn.withFetchWord 72 1).command = some (.predict 0) ∧
    needsReset (.predict 0) = true := ⟨rfl, rfl, rfl, rfl⟩

theorem witness_GhrAndBhtHoldTheRecentOutcomes :
    Instr.reset ∉ [Instr.predict addr, .update addr true true 0, .update 7 false true 0] ∧
    outcomes (fun _ => true) [Instr.predict addr, .update addr true true 0, .update 7 false true 0]
      = [true, false] ∧
    outcomes (fun pc => decide (pc.toNat % 2 ^ 12 = 7))
      [Instr.predict addr, .update addr true true 0, .update 7 false true 0] = [false] := by decide

theorem witness_HistoryBitsAboveTwentyOneNeverMatter : 21 ≤ 64 := by decide

/-- Right predictions: V7 row 5, where gskew bank 2 dissents, and row 13, where pskew bank 2 does. -/
theorem witness_RightPredictionLeavesDissentersAlone :
    ((snap [3,2,1,2,2,0,0]).final = true ∧
      ¬ (((engineOf [3,2,1,2,2,0,0]).read config .gb2 ((snap [3,2,1,2,2,0,0]).entry .gb2)).toNat > 1
        ↔ true = true)) ∧
    ((snap [2,2,2,2,1,2,3]).final = true ∧
      ¬ (((engineOf [2,2,2,2,1,2,3]).read config .pb2 ((snap [2,2,2,2,1,2,3]).entry .pb2)).toNat > 1
        ↔ true = true)) := by decide

/-- A PREDICT from idle, and the UPDATE that follows it. -/
theorem witness_MonitorAgreesWithTheEngine :
    Agrees .idle State.reset ∧
    nextOf (exec (.predict addr) State.reset) = some { State.reset with resp := some true } ∧
    watch .idle (.predict addr) (some true) = some (.asked addr true) ∧
    watch (.asked addr true) (.update addr false true 0) none = some .idle :=
  ⟨trivial, by decide, by decide, by decide⟩

/-- A stream that keeps the contract, with a TRACK and a repeated PREDICT before the UPDATE (R248). -/
theorem witness_ContractUpdatesCarryTheFinalPrediction :
    keepsContract .idle ([.reset, .predict addr, .track 0 0 0, .predict addr]
      ++ .update addr false true 0 :: [.predict 7]) State.powerOn = true := by decide

theorem witness_RepeatedBranchConverges : State.reset.engine.isSome = true ∧ 23 ≤ 23 := by decide

end Sys2Proof.Tests
end

section
/-! PROOFS. Which commands write a state element (R36). -/

namespace Sys2Proof.Proofs

open Sys2Proof.Machine Sys2Proof.Claims

variable {i : Instr} {s t : State}

/-- The write authority of R36: a command that changed a state element was RESET or UPDATE. -/
theorem reset_or_update_of_engine_ne (h : exec i s = .next t) (hne : t.engine ≠ s.engine) :
    i = .reset ∨ ∃ pc rd pd tgt, i = .update pc rd pd tgt := by
  rcases exec_cases h with ⟨_, _, _, -, rfl⟩ | ⟨_, _, -, -, rfl⟩ | ⟨pc, rd, pd, tgt, _, rfl, -, -⟩ |
    ⟨rfl, -⟩
  · exact absurd (silent_engine s) hne
  · exact absurd (answer_engine s _) hne
  · exact .inr ⟨pc, rd, pd, tgt, rfl⟩
  · exact .inl rfl

/-- The frame of TRACK and PREDICT: the answer is all that can differ afterwards. -/
theorem exec_changes_only_resp_of_writesNothing (h : exec i s = .next t)
    (hi : writesNothing i = true) : t = { s with resp := t.resp } := by
  rcases exec_cases h with ⟨_, _, _, -, rfl⟩ | ⟨_, _, -, -, rfl⟩ | ⟨_, _, _, _, _, rfl, -, -⟩ | ⟨rfl, -⟩
  · rfl
  · rfl
  · cases hi
  · cases hi

/-- Settles O10: the two lemmas above, and RESET, which sets the engine in every state. -/
theorem onlyUpdateAndResetWrite : Obligations.OnlyUpdateAndResetWrite :=
  ⟨fun _ _ _ => reset_or_update_of_engine_ne,
    fun _ _ _ => exec_changes_only_resp_of_writesNothing,
    fun s => ⟨Engine.reset, exec_reset s⟩⟩

end Sys2Proof.Proofs
end

section
/-! PROOFS. The index ranges and the read and write primitives of the tables (20_memory.md R51, R53). -/

namespace Sys2Proof.Proofs

open Sys2Proof.Machine

/-- Whatever the role assignment and the history, a skewed index is a value of `MAPINDEX` at its index
length, and so below the table's size (R53, 40_counters_and_hash.md R119, R122). -/
theorem skewIndex_mapIndex_and_lt {w n : Nat} (r : Role) (pc : Addr) (hist : BitVec w)
    (histLen : Nat) :
    (∃ a b c : BitVec n, skewIndex r pc hist histLen n = (mapIndex a b c).toNat) ∧
      skewIndex r pc hist histLen n < 2 ^ n :=
  ⟨⟨_, _, _, rfl⟩, skewIndex_lt pc hist histLen n r⟩

/-- The three direct-mapped indices are remainders of the address (R53). -/
theorem lookup_config_direct_indices (e : Engine) (pc : Addr) (L : Nat) :
    (lookup config e pc L).bi = pc.toNat % 2 ^ 15 ∧ (lookup config e pc L).t2i = pc.toNat % 2 ^ 14 ∧
      (lookup config e pc L).li = pc.toNat % 2 ^ 12 :=
  ⟨rfl, rfl, rfl⟩

/-- The five skewed indices are skewed indices at 15 bits, each under some role assignment and with the
global or the local history (41_predictor_banks.md R141, R144, R146). -/
theorem lookup_config_skewed_indices (e : Engine) (pc : Addr) {i : Nat}
    (hi : i ∈ [(lookup config e pc 15).gi1, (lookup config e pc 15).gi2, (lookup config e pc 15).pi1,
      (lookup config e pc 15).pi2, (lookup config e pc 15).t1i]) :
    ∃ (r : Role) (hist : History), i = skewIndex r pc hist 21 15 := by
  simp only [List.mem_cons, List.not_mem_nil, or_false] at hi
  rcases hi with rfl | rfl | rfl | rfl | rfl
  · exact ⟨config.roleB1, e.ghr, rfl⟩
  · exact ⟨config.roleB2, e.ghr, rfl⟩
  · exact ⟨config.roleB1, (lookup config e pc 15).lh, rfl⟩
  · exact ⟨config.roleB2, (lookup config e pc 15).lh, rfl⟩
  · exact ⟨config.roleT1, e.ghr, rfl⟩

/-- Settles O17: both index lengths are 15, the direct-mapped indices are remainders, and the other five
are skewed indices at that length. -/
theorem everyIndexIsInRange : Obligations.EveryIndexIsInRange := by
  intro e pc L hL
  obtain rfl : L = 15 := by simpa using hL
  refine ⟨lookup_config_direct_indices e pc 15, fun i hi => ?_, lookup_entry_lt config e pc rfl,
    localIndex_lt config pc⟩
  obtain ⟨r, hist, rfl⟩ := lookup_config_skewed_indices e pc hi
  exact skewIndex_mapIndex_and_lt r pc hist 21

/-- Settles O36: each clause is the read-after-write law of its pair of elements, or the reset value. -/
theorem readsSeeTheLastWrite : Obligations.ReadsSeeTheLastWrite := fun e T U i j k h =>
  ⟨engine_read_write config e T U i j k, write_readBht config e T i j k, write_ghr config e T i k,
    readBht_writeBht e i j h, writeBht_read config e U i j h, writeBht_ghr e i h,
    reset_read config U j, reset_readBht j⟩

end Sys2Proof.Proofs
end

section
/-! PROOFS. Which commands answer, and that none faults (30_encoding.md R86). -/

namespace Sys2Proof.Proofs

open Sys2Proof.Machine

variable {i : Instr} {s t : State}

/-- Of the commands that complete, PREDICT alone leaves an answer on the response port (R86). -/
theorem exec_resp_eq_some_iff (h : exec i s = .next t) :
    (∃ b, t.resp = some b) ↔ ∃ pc, i = .predict pc := by
  rcases exec_cases h with ⟨_, _, _, rfl, rfl⟩ | ⟨pc, e, rfl, -, rfl⟩ | ⟨_, _, _, _, _, rfl, -, rfl⟩ |
    ⟨rfl, rfl⟩
  · simp
  · exact ⟨fun _ => ⟨pc, rfl⟩, fun _ => ⟨prediction config e pc, answer_resp s _⟩⟩
  · simp
  · simp

/-- No command reports an error: the model has no fault to report (R86, R234). -/
theorem exec_ne_fault (i : Instr) (s : State) (r : Fault) : exec i s ≠ .fault r :=
  nomatch r

/-- Settles O9: the answers by the cases of a completed command, the errors by the empty fault type. -/
theorem onlyPredictIsAnswered : Obligations.OnlyPredictIsAnswered :=
  fun i s => ⟨fun _ => exec_resp_eq_some_iff, exec_ne_fault i s⟩

end Sys2Proof.Proofs
end

section
/-! PROOFS. The fields of the lookup record at the engine's parameters (41_predictor_banks.md R140 to
R149). -/

namespace Sys2Proof.Proofs

open Sys2Proof.Machine

/-- `MAJ3` as a count of votes (40_counters_and_hash.md R114). -/
theorem maj3_eq_count (x y z : Bool) : maj3 x y z = decide (x.toNat + y.toNat + z.toNat ≥ 2) := rfl

/-- The local history of the record is the BHT entry at the record's own index (R143). -/
theorem lookup_lh_eq_readBht_li (c : Config) (e : Engine) (pc : Addr) (L : Nat) :
    (lookup c e pc L).lh = e.readBht (lookup c e pc L).li := by
  rw [lookup_lh, lookup_li]

/-- Settles O15: each field by its own law, the votes and selections at the engine's thresholds. -/
theorem lookupFollowsItsRules : Obligations.LookupFollowsItsRules := by
  intro e pc L r votes majority
  obtain ⟨hbi, ht2i, hli⟩ := lookup_config_direct_indices e pc L
  refine ⟨?bimodal, ?gskew, ?localHistory, ?pskew, ?tournament1, ht2i, ?tournament2⟩
  case bimodal =>
    exact ⟨hbi, lookup_cb config e pc L, (lookup_bim config e pc L).trans (vote_config _)⟩
  case gskew =>
    exact ⟨lookup_cg1 config e pc L, (lookup_vg1 config e pc L).trans (vote_config _),
      lookup_cg2 config e pc L, (lookup_vg2 config e pc L).trans (vote_config _),
      (lookup_gskew config e pc L).trans (maj3_eq_count _ _ _)⟩
  case localHistory => exact ⟨hli, lookup_lh_eq_readBht_li config e pc L⟩
  case pskew =>
    exact ⟨lookup_cp1 config e pc L, (lookup_vp1 config e pc L).trans (vote_config _),
      lookup_cp2 config e pc L, (lookup_vp2 config e pc L).trans (vote_config _),
      (lookup_pskew config e pc L).trans (maj3_eq_count _ _ _)⟩
  case tournament1 =>
    exact ⟨lookup_ct1 config e pc L, (lookup_selg config e pc L).trans (selectsFirst_config _),
      lookup_comp config e pc L⟩
  case tournament2 =>
    exact ⟨lookup_ct2 config e pc L, (lookup_sel2bc config e pc L).trans (selectsFirst_config _),
      lookup_final config e pc L⟩

end Sys2Proof.Proofs
end

section
/-! PROOFS. PREDICTs and TRACKs leave no trace for the commands after them (42_predict.md R171). -/

namespace Sys2Proof.Proofs

open Sys2Proof.Machine Sys2Proof.Claims

variable {s : State}

/-- One PREDICT or TRACK after a RESET completes, with the state elements and the host's input kept. -/
theorem exec_completes_and_keeps_of_writesNothing (hs : s.engine.isSome = true) {i : Instr}
    (hi : writesNothing i = true) :
    ∃ t, exec i s = .next t ∧ t.engine = s.engine ∧ t.input = s.input := by
  obtain ⟨t, ht, -⟩ := exec_completes hs i
  have frame : t = { s with resp := t.resp } := exec_changes_only_resp_of_writesNothing ht hi
  exact ⟨t, ht, (congrArg State.engine frame :), exec_input ht⟩

/-- The same of any number of them, by induction on the list. -/
theorem execAll_completes_and_keeps_of_writesNothing (cmds : List Instr)
    (hs : s.engine.isSome = true) (hc : ∀ i ∈ cmds, writesNothing i = true) :
    ∃ t, execAll cmds s = .next t ∧ t.engine = s.engine ∧ t.input = s.input := by
  induction cmds generalizing s with
  | nil => exact ⟨s, execAll_nil s, rfl, rfl⟩
  | cons i rest ih =>
    obtain ⟨hi, hrest⟩ := List.forall_mem_cons.mp hc
    obtain ⟨u, hu, hue, hui⟩ := exec_completes_and_keeps_of_writesNothing hs hi
    obtain ⟨t, ht, hte, hti⟩ := ih (s := u) (hue ▸ hs) hrest
    refine ⟨t, ?_, hte.trans hue, hti.trans hui⟩
    rw [execAll_cons, hu, andThen_next, ht]

/-- Settles O26: the run keeps the engine and the input, which are all that a later command depends on. -/
theorem predictAndTrackArePure : Obligations.PredictAndTrackArePure := by
  intro cmds s hs hc
  obtain ⟨t, ht, he, hi⟩ := execAll_completes_and_keeps_of_writesNothing cmds hs hc
  exact ⟨t, ht, he, hi, exec_of_same he hi⟩

end Sys2Proof.Proofs
end

section
/-! PROOFS. UPDATE accepts its target operand and never reads it (43_update.md R191). -/

namespace Sys2Proof.Proofs

open Sys2Proof.Machine Sys2Proof.Claims

/-- Settles O33: before the first RESET both are refused; after it both leave the engine that
`updateEngine`, which takes no target, computes. -/
theorem updateIgnoresTheTarget : Obligations.UpdateIgnoresTheTarget := by
  intro pc rd pd tgt tgt' s
  cases he : s.engine with
  | none => exact (exec_update_none he pc rd pd tgt).trans (exec_update_none he pc rd pd tgt').symm
  | some e => exact (exec_update he pc rd pd tgt).trans (exec_update he pc rd pd tgt').symm

end Sys2Proof.Proofs
end

section
/-! PROOFS. The command word: where its fields stand, and that decoding and encoding undo each other
(30_encoding.md R81 to R84, R92). -/

namespace Sys2Proof.Proofs

open Sys2Proof.Machine

/-! ## The fields of a word as numbers -/

section Fields

variable (w : CmdWord)

theorem pcField_eq_ofNat : pcField w = BitVec.ofNat 32 (w.toNat / 2 ^ 2 % 2 ^ 32) := by
  apply BitVec.eq_of_toNat_eq
  simp [pcField, Nat.shiftRight_eq_div_pow]

theorem tgtField_eq_ofNat : tgtField w = BitVec.ofNat 32 (w.toNat / 2 ^ 36 % 2 ^ 32) := by
  apply BitVec.eq_of_toNat_eq
  simp [tgtField, Nat.shiftRight_eq_div_pow]

theorem clsField_eq_ofNat : clsField w = BitVec.ofNat 4 (w.toNat / 2 ^ 68) := by
  apply BitVec.eq_of_toNat_eq
  simp [clsField, Nat.shiftRight_eq_div_pow]

theorem rdField_eq_decide : rdField w = decide (w.toNat / 2 ^ 34 % 2 = 1) :=
  Nat.testBit_eq_decide_div_mod_eq

theorem pdField_eq_decide : pdField w = decide (w.toNat / 2 ^ 35 % 2 = 1) :=
  Nat.testBit_eq_decide_div_mod_eq

/-- The opcode stands in the two lowest bits (R81). -/
theorem opField_eq_iff (op : BitVec 2) : opField w = op ↔ w.toNat % 4 = op.toNat := by
  rw [Laws.TableMatch.opField_toNat, BitVec.toNat_inj]

end Fields

/-! ## The fields above a word's highest bit are 0 -/

section ZeroFields

variable {w : CmdWord}

theorem pcField_eq_zero (h : w.toNat < 2 ^ 2) : pcField w = 0 := by
  rw [pcField_eq_ofNat, Nat.div_eq_of_lt h]; rfl

theorem rdField_eq_false (h : w.toNat < 2 ^ 34) : rdField w = false := by
  rw [rdField_eq_decide, Nat.div_eq_of_lt h]; rfl

theorem pdField_eq_false (h : w.toNat < 2 ^ 35) : pdField w = false := by
  rw [pdField_eq_decide, Nat.div_eq_of_lt h]; rfl

theorem tgtField_eq_zero (h : w.toNat < 2 ^ 36) : tgtField w = 0 := by
  rw [tgtField_eq_ofNat, Nat.div_eq_of_lt h]; rfl

theorem clsField_eq_zero (h : w.toNat < 2 ^ 68) : clsField w = 0 := by
  rw [clsField_eq_ofNat, Nat.div_eq_of_lt h]; rfl

end ZeroFields

/-! ## The obligations -/

/-- Settles O1: the decoder finds the opcode the encoder wrote, and then every field it wrote. -/
theorem decodeOfEncodeIsIdentity : Obligations.DecodeOfEncodeIsIdentity := by
  intro i
  cases i with
  | track pc cls tgt => simp [encode, decode_track]
  | predict pc => simp [encode, decode_predict]
  | update pc rd pd tgt => simp [encode, decode_update]
  | reset => simp [encode, decode_reset]

/-- Settles O2: a word is the assembly of its own fields, and the hypotheses make the fields that the
encoder fills with 0 zero in the word. -/
theorem encodeOfDecodeIsIdentity : Obligations.EncodeOfDecodeIsIdentity := by
  intro w htrack hpredict hupdate hreset
  have fields := commandWord_fields w
  rcases opField_cases w with h | h | h | h <;> rw [h] at fields
  · obtain ⟨hrd, hpd⟩ := htrack h
    rwa [hrd, hpd, ← encode, ← decode_track h] at fields
  · have hw := hpredict h
    rwa [rdField_eq_false hw, pdField_eq_false (by omega), tgtField_eq_zero (by omega),
      clsField_eq_zero (by omega), ← encode, ← decode_predict h] at fields
  · rwa [clsField_eq_zero (hupdate h), ← encode, ← decode_update h] at fields
  · have hw := hreset h
    rwa [pcField_eq_zero hw, rdField_eq_false (by omega), pdField_eq_false (by omega),
      tgtField_eq_zero (by omega), clsField_eq_zero (by omega), ← encode, ← decode_reset h] at fields

/-- Settles O3: the remainder by 4 is the opcode, and every field is its number. -/
theorem operandsStandAtTheirBits : Obligations.OperandsStandAtTheirBits := by
  intro w n pc rd pd tgt cls
  have hpc : pcField w = pc := pcField_eq_ofNat w
  have hrd : rdField w = rd := rdField_eq_decide w
  have hpd : pdField w = pd := pdField_eq_decide w
  have htgt : tgtField w = tgt := tgtField_eq_ofNat w
  have hcls : clsField w = cls := clsField_eq_ofNat w
  rw [← hpc, ← hrd, ← hpd, ← htgt, ← hcls]
  exact ⟨fun h => decode_track ((opField_eq_iff w 0b00#2).mpr h),
    fun h => decode_predict ((opField_eq_iff w 0b01#2).mpr h),
    fun h => decode_update ((opField_eq_iff w 0b10#2).mpr h),
    fun h => decode_reset ((opField_eq_iff w 0b11#2).mpr h)⟩

/-- Settles O4: the decoder run on the five words. -/
theorem testVectorWordsDecode : Obligations.TestVectorWordsDecode := by
  unfold Obligations.TestVectorWordsDecode
  decide

/-- Settles O5: TRACK reads no operand, UPDATE no target, RESET has none, and the other fields agree. -/
theorem ignoredFieldsHaveNoEffect : Obligations.IgnoredFieldsHaveNoEffect := by
  intro w w' s hop hpredict hupdate
  rcases opField_cases w with h | h | h | h <;> have h' := hop.symm.trans h
  · rw [decode_track h, decode_track h', exec_track, exec_track]
  · rw [decode_predict h, decode_predict h', hpredict h]
  · obtain ⟨hpc, hrd, hpd⟩ := hupdate h
    rw [decode_update h, decode_update h', hpc, hrd, hpd]
    exact updateIgnoresTheTarget _ _ _ _ _ s
  · rw [decode_reset h, decode_reset h']

end Sys2Proof.Proofs
end

section
/-! PROOFS. The canonical form of the tables (20_memory.md section 1; log entry 1). -/

namespace Sys2Proof.Proofs

open Sys2Proof.Machine

/-- Settles O38: an idle cycle keeps the engine, and every command keeps the form. -/
theorem stepKeepsTablesCanonical : Obligations.StepKeepsTablesCanonical := by
  intro s t hs h
  have hadvance : s.advance.Wf := hs
  rcases step_cases h with ⟨-, rfl⟩ | ⟨i, -, hi⟩
  · exact hadvance
  · exact exec_wf hadvance hi

/-- Settles O37: canonical tables with the same contents are the same lists, element by element. -/
theorem canonicalEnginesAreEqual : Obligations.CanonicalEnginesAreEqual := by
  intro c e f ⟨hetables, hebht⟩ ⟨hftables, hfbht⟩ hread hbht hghr
  have htable : ∀ T, e.table T = f.table T := fun T =>
    table_ext _ (hetables T (mem_tbl_all T)) (hftables T (mem_tbl_all T)) (hread T)
  exact engine_ext htable (table_ext _ hebht hfbht hbht) hghr

/-- Settles O39: after RESET no entry is listed, and before the first RESET there is no table. -/
theorem resetTablesAreCanonical : Obligations.ResetTablesAreCanonical := by
  constructor
  · intro e he
    obtain rfl : Engine.reset = e := by simpa using he
    exact reset_engine_wf config
  · intro e he
    simp at he

end Sys2Proof.Proofs
end

section
/-! PROOFS. TRACK, RESET and the cycles of the port (30_encoding.md R90, R91; 44_track_and_reset.md). -/

namespace Sys2Proof.Proofs

open Sys2Proof.Machine Sys2Proof.Safety

variable {s : State} {i : Instr}

/-- Settles O12: TRACK only takes the last answer off the port. -/
theorem trackChangesNothing : Obligations.TrackChangesNothing := exec_track

/-- Settles O13: the reset engine, in which every entry reads as its reset value. -/
theorem resetSetsEveryElement : Obligations.ResetSetsEveryElement := by
  refine ⟨Engine.reset, exec_reset, fun T j => ?_, fun j => ?_, rfl⟩
  · rw [reset_read, config_init]; rfl
  · rw [reset_readBht]; rfl

/-! ## Which command a cycle carries -/

/-- The command of a cycle is RESET with the pin, else the one its valid word decodes to (R90, R91). -/
theorem portCommand_eq_some_iff (p : PortIn) :
    p.command = some i ↔
      p.rst = true ∧ i = .reset ∨ p.rst = false ∧ p.cmdValid = true ∧ decode p.cmd = i := by
  unfold PortIn.command
  cases p.rst <;> cases p.cmdValid <;> simp [eq_comm]

/-- A cycle has no command when neither the pin nor `cmd_valid` is 1. -/
theorem portCommand_idle {p : PortIn} (hrst : p.rst = false) (hvalid : p.cmdValid = false) :
    p.command = none := by
  simp [PortIn.command, hrst, hvalid]

/-- The command of the coming cycle stands in the first of the host's waiting inputs. -/
theorem exists_input_of_command (h : s.command = some i) :
    ∃ p rest, s.input = p :: rest ∧ p.command = some i := by
  unfold State.command at h
  split at h
  · cases h
  next p rest hinput => exact ⟨p, rest, hinput, h⟩

theorem command_of_input {p : PortIn} {rest : List PortIn} (h : s.input = p :: rest) :
    s.command = p.command := by
  simp [State.command, h]

/-- Settles O6: the cycle's command is the decoded word. -/
theorem stepRunsThePresentedCommand : Obligations.StepRunsThePresentedCommand := by
  intro s w i rest hinput hdecode
  have hcommand : s.command = some i :=
    (command_of_input hinput).trans ((portCommand_eq_some_iff _).mpr (.inr ⟨rfl, rfl, hdecode⟩))
  rw [step_command hcommand, State.advance, hinput, List.tail_cons]

/-- Settles O7: both cycles carry RESET, which leaves the reset engine from every state. -/
theorem resetPinActsAsReset : Obligations.ResetPinActsAsReset := by
  intro s p w rest hrst hop
  have reset_cycle : ∀ q : PortIn, q.command = some .reset → step { s with input := q :: rest }
      = .next { engine := some Engine.reset, input := rest, resp := none } := fun q hq => by
    rw [step_command ((command_of_input rfl).trans hq), exec_reset]
    rfl
  have hpin := reset_cycle p ((portCommand_eq_some_iff p).mpr (.inl ⟨hrst, rfl⟩))
  have hword := reset_cycle ⟨false, true, w⟩
    ((portCommand_eq_some_iff _).mpr (.inr ⟨rfl, rfl, decode_reset hop⟩))
  exact ⟨hpin.trans hword.symm, hpin⟩

/-- Settles O8: a cycle with no command only takes the last answer off the port. -/
theorem idleCycleChangesNothing : Obligations.IdleCycleChangesNothing := by
  intro s hidle
  refine step_idle ?_
  cases hinput : s.input with
  | nil => simp [State.command, hinput]
  | cons p rest =>
    obtain ⟨hrst, hvalid⟩ := hidle p (by simp [hinput])
    exact (command_of_input hinput).trans (portCommand_idle hrst hvalid)

/-- Settles O11: the cycle ran a command, which was RESET or UPDATE, and the port tells where it came
from. -/
theorem onlyUpdateAndResetCyclesWrite : Obligations.OnlyUpdateAndResetCyclesWrite := by
  intro s t h hne
  rcases step_cases h with ⟨-, rfl⟩ | ⟨i, hcommand, hi⟩
  · exact absurd rfl hne
  · have writer := reset_or_update_of_engine_ne hi hne
    obtain ⟨p, rest, hinput, hp⟩ := exists_input_of_command hcommand
    refine ⟨p, rest, hinput, ?_⟩
    rcases (portCommand_eq_some_iff p).mp hp with ⟨hrst, -⟩ | ⟨-, hvalid, rfl⟩
    · exact .inl hrst
    · exact .inr ⟨hvalid, writer⟩

/-! ## Completion -/

/-- Settles O40: a cycle is idle or runs a command, and with content every command completes. -/
theorem everyCommandCompletesAfterReset : Obligations.EveryCommandCompletesAfterReset := by
  intro s hs
  refine ⟨?_, exec_completes hs⟩
  cases hcommand : s.command with
  | none => exact ⟨_, step_idle hcommand, hs⟩
  | some i =>
    rw [step_command hcommand]
    exact exec_completes (s := s.advance) hs i

/-- The one stop of a command: its content is needed and there is none yet (R242). -/
theorem exec_refused_iff (i : Instr) (s : State) (r : Refusal) :
    exec i s = .refused r ↔ r = .beforeFirstReset ∧ s.engine = none ∧ needsReset i = true := by
  constructor
  · intro h
    obtain ⟨hr, hs, ⟨pc, rfl⟩ | ⟨pc, rd, pd, tgt, rfl⟩⟩ := exec_refused h
    · exact ⟨hr, hs, rfl⟩
    · exact ⟨hr, hs, rfl⟩
  · rintro ⟨rfl, hs, hi⟩
    cases i with
    | track pc cls tgt => cases hi
    | predict pc => exact exec_predict_none hs pc
    | update pc rd pd tgt => exact exec_update_none hs pc rd pd tgt
    | reset => cases hi

/-- Settles O41: an idle cycle is never refused, and a cycle with a command exactly when the command is. -/
theorem onlyUseBeforeResetIsRefused : Obligations.OnlyUseBeforeResetIsRefused := by
  intro s
  refine ⟨fun r => (nomatch r), fun r => ?_⟩
  cases hcommand : s.command with
  | none => simp [step_idle hcommand]
  | some i => simp [step_command hcommand, exec_refused_iff]

end Sys2Proof.Proofs
end

section
/-! PROOFS. The skewed indexer: the laws of `H` and `HINV`, the fields of `CONSTRUCTV` and the indices
made from them (40_counters_and_hash.md section 2). -/

namespace Sys2Proof.Proofs

open Sys2Proof.Machine

/-! ## `H` and `HINV` -/

section Hash

variable {n : Nat}

theorem hashHinv_hashH (hn : 2 ≤ n) (x : BitVec n) : hashHinv (hashH x) = x := by
  apply BitVec.eq_of_getLsbD_eq
  intro i hi
  rw [getLsbD_hashHinv hn, decide_eq_true hi, Bool.true_and]
  by_cases h0 : i = 0
  · have hne : n - 2 ≠ n - 1 := by omega
    have htop : n - 2 + 1 = n - 1 := by omega
    rw [if_pos h0, getLsbD_hashH hn, getLsbD_hashH hn, if_pos rfl, if_neg hne, htop, h0]
    cases x.getLsbD (n - 1) <;> simp
  · have hne : i - 1 ≠ n - 1 := by omega
    rw [if_neg h0, getLsbD_hashH hn, if_neg hne, Nat.sub_add_cancel (by omega)]

theorem hashH_hashHinv (hn : 2 ≤ n) (x : BitVec n) : hashH (hashHinv x) = x := by
  apply BitVec.eq_of_getLsbD_eq
  intro i hi
  rw [getLsbD_hashH hn]
  by_cases htop : i = n - 1
  · have hpos : 0 < n := by omega
    have hlt : n - 1 < n := by omega
    have hne : n - 1 ≠ 0 := by omega
    have hsub : n - 1 - 1 = n - 2 := by omega
    rw [if_pos htop, getLsbD_hashHinv hn, getLsbD_hashHinv hn, if_pos rfl, if_neg hne, hsub, htop]
    cases x.getLsbD (n - 1) <;> simp [hpos]
  · have hlt : i + 1 < n := by omega
    rw [if_neg htop, getLsbD_hashHinv hn]
    simp [hlt]

theorem hashH_xor (hn : 2 ≤ n) (x y : BitVec n) : hashH (x ^^^ y) = hashH x ^^^ hashH y := by
  apply BitVec.eq_of_getLsbD_eq
  intro i _
  simp only [BitVec.getLsbD_xor, getLsbD_hashH hn]
  split
  · simp only [Bool.xor_assoc, Bool.xor_left_comm]
  · rfl

theorem hashHinv_xor (hn : 2 ≤ n) (x y : BitVec n) :
    hashHinv (x ^^^ y) = hashHinv x ^^^ hashHinv y := by
  apply BitVec.eq_of_getLsbD_eq
  intro i hi
  simp only [BitVec.getLsbD_xor, getLsbD_hashHinv hn, decide_eq_true hi, Bool.true_and]
  split
  · simp only [Bool.xor_assoc, Bool.xor_left_comm]
  · rfl

/-- `HINV` is `SHIFT_IN` of the XOR of the two top bits (R115, R117). -/
theorem hashHinv_eq_shiftIn (x : BitVec n) :
    hashHinv x = shiftIn x (x.getLsbD (n - 1) ^^ x.getLsbD (n - 2)) := rfl

theorem hashHinv_toNat (hn : 2 ≤ n) (x : BitVec n) :
    (hashHinv x).toNat
      = 2 * x.toNat % 2 ^ n + (x.getLsbD (n - 1) ^^ x.getLsbD (n - 2)).toNat := by
  have hpow : 2 * 2 ^ (n - 1) = 2 ^ n := mul_pow_sub_one (by omega) 2
  have hbit := Bool.toNat_lt (x.getLsbD (n - 1) ^^ x.getLsbD (n - 2))
  rw [hashHinv_eq_shiftIn, shiftIn_toNat, ← hpow, Nat.mod_mul, Nat.mul_mod_mul_left,
    Nat.mul_add_div (by omega), Nat.mul_add_mod, Nat.mod_eq_of_lt hbit, Nat.div_eq_of_lt hbit,
    Nat.add_zero, Nat.add_comm]

/-- A bit put at the top of a word weighs `2 ^ (n - 1)`. -/
theorem topBit_toNat (hn : 2 ≤ n) (d : Bool) :
    ((dirBit d).setWidth n <<< (n - 1)).toNat = 2 ^ (n - 1) * d.toNat := by
  have hone : 1 < 2 ^ n := Nat.one_lt_two_pow (by omega)
  have htop : 2 ^ (n - 1) < 2 ^ n := Nat.pow_lt_pow_right (by decide) (by omega)
  cases d
  · simp [dirBit]
  · simp [dirBit, Nat.mod_eq_of_lt hone, Nat.shiftLeft_eq, Nat.mod_eq_of_lt htop]

theorem hashH_toNat (hn : 2 ≤ n) (x : BitVec n) :
    (hashH x).toNat
      = x.toNat / 2 + 2 ^ (n - 1) * (x.getLsbD (n - 1) ^^ x.getLsbD 0).toNat := by
  have hpow : 2 * 2 ^ (n - 1) = 2 ^ n := mul_pow_sub_one (by omega) 2
  have hhalf : x.toNat / 2 < 2 ^ (n - 1) := by have := x.isLt; omega
  rw [hashH, BitVec.toNat_or, topBit_toNat hn, BitVec.toNat_ushiftRight, Nat.shiftRight_one,
    Nat.or_comm, ← Nat.two_pow_add_eq_or_of_lt hhalf, Nat.add_comm]

end Hash

/-- Settles O19: each undoes the other, bit by bit, and every bit is an XOR of bits. -/
theorem hashLaws : Obligations.HashLaws := fun _ hn =>
  ⟨hashHinv_hashH hn, hashH_hashHinv hn,
    Function.bijective_iff_has_inverse.mpr ⟨hashHinv, hashHinv_hashH hn, hashH_hashHinv hn⟩,
    Function.bijective_iff_has_inverse.mpr ⟨hashH, hashH_hashHinv hn, hashHinv_hashH hn⟩,
    fun x y => ⟨hashH_xor hn x y, hashHinv_xor hn x y⟩⟩

/-- Settles O20: the bit each shifts in is 0 exactly when the two bits it comes from are equal. -/
theorem hashFormulas : Obligations.HashFormulas := by
  intro n x hn
  rw [hashH_toNat hn, hashHinv_toNat hn]
  constructor
  · cases x.getLsbD (n - 1) <;> cases x.getLsbD 0 <;> simp
  · cases x.getLsbD (n - 1) <;> cases x.getLsbD (n - 2) <;> simp

/-! ## The two fields and the indices -/

/-- Settles O21: each field is a cut of the address times `2 ^ 21` plus the history's low 21 bits. -/
theorem constructVCutsTwoFields : Obligations.ConstructVCutsTwoFields := by
  intro w pc hist
  have wide : (wideVector pc hist 21).toNat = pc.toNat * 2 ^ 21 + hist.toNat % 2 ^ 21 := by
    rw [wideVector, BitVec.toNat_append, BitVec.toNat_setWidth,
      ← Nat.shiftLeft_add_eq_or_of_lt (Nat.mod_lt _ (by decide)), Nat.shiftLeft_eq]
  rw [vectorLow, vectorHigh, BitVec.extractLsb'_toNat, BitVec.extractLsb'_toNat, wide,
    Nat.shiftRight_eq_div_pow, Nat.shiftRight_eq_div_pow]
  omega

/-- Settles O22: the two `MAPINDEX` values share `H(v1)` and `HINV(v2)`, which cancel. -/
theorem bankIndicesDifferByTheFields : Obligations.BankIndicesDifferByTheFields := by
  intro n v1 v2
  have hxor : roleIndex config.roleB1 v1 v2 ^^^ roleIndex config.roleB2 v1 v2 = v1 ^^^ v2 := by
    calc (hashH v1 ^^^ hashHinv v2 ^^^ v2) ^^^ (hashH v1 ^^^ hashHinv v2 ^^^ v1)
        = ((hashH v1 ^^^ hashHinv v2) ^^^ (hashH v1 ^^^ hashHinv v2)) ^^^ (v1 ^^^ v2) := by ac_rfl
      _ = v1 ^^^ v2 := by rw [BitVec.xor_self, BitVec.zero_xor]
  refine ⟨hxor, ?_⟩
  rw [← BitVec.xor_eq_zero_iff, hxor, BitVec.xor_eq_zero_iff]

/-- Bit `i` of `MAPINDEX` (R119). -/
theorem getLsbD_mapIndex {n : Nat} (a b c : BitVec n) (i : Nat) :
    (mapIndex a b c).getLsbD i = (((hashH a).getLsbD i ^^ (hashHinv b).getLsbD i) ^^ c.getLsbD i) := by
  simp [mapIndex]

/-- Settles O18: the two fields bit by bit, put through `H`, `HINV` and the XOR of `MAPINDEX`. -/
theorem skewedIndexBits : Obligations.SkewedIndexBits := by
  intro e pc r v1 v2 hash i hi
  have hlow : ∀ (h : BitVec 21) (k : Nat), k < 15 → (vectorLow pc h 21 15).getLsbD k = v1 h k := by
    intro h k hk
    have : k < 21 := by omega
    rw [getLsbD_vectorLow, decide_eq_true hk, Bool.true_and, if_pos this]
  have hhigh : ∀ (h : BitVec 21) (k : Nat), k < 15 → (vectorHigh pc h 21 15).getLsbD k = v2 h k := by
    intro h k hk
    have hlt : 15 + k < 21 ↔ k < 6 := by omega
    have hsub : 15 + k - 21 = k - 6 := by omega
    simp only [getLsbD_vectorHigh, decide_eq_true hk, Bool.true_and, hlt, hsub, v2]
  have hhash : ∀ h : BitVec 21, ((hashH (vectorLow pc h 21 15)).getLsbD i ^^
      (hashHinv (vectorHigh pc h 21 15)).getLsbD i) = hash h i := by
    intro h
    rw [getLsbD_hashH (by decide), getLsbD_hashHinv (by decide), decide_eq_true hi, Bool.true_and]
    refine congrArg₂ xor ?_ ?_
    · by_cases htop : i = 14
      · rw [if_pos htop, if_pos htop, hlow h _ (by decide), hlow h 0 (by decide)]
      · rw [if_neg htop, if_neg htop, hlow h _ (by omega)]
    · by_cases hbottom : i = 0
      · rw [if_pos hbottom, if_pos hbottom, hhigh h _ (by decide), hhigh h _ (by decide)]
      · rw [if_neg hbottom, if_neg hbottom, hhigh h _ (by omega)]
  have bank1 : ∀ h : BitVec 21,
      (skewIndex config.roleB1 pc h 21 15).testBit i = (hash h i ^^ v2 h i) := fun h => by
    rw [← hhash, ← hhigh h i hi]
    exact getLsbD_mapIndex _ _ _ i
  have bank2 : ∀ h : BitVec 21,
      (skewIndex config.roleB2 pc h 21 15).testBit i = (hash h i ^^ v1 h i) := fun h => by
    rw [← hhash, ← hlow h i hi]
    exact getLsbD_mapIndex _ _ _ i
  exact ⟨bank1 _, bank2 _, bank1 _, bank1 _, bank2 _⟩

end Sys2Proof.Proofs
end

section
/-! PROOFS. What PREDICT answers (42_predict.md R170, R172; 41_predictor_banks.md R151). -/

namespace Sys2Proof.Proofs

open Sys2Proof.Machine

/-- Five equal votes are the final prediction, whatever the tournament counters hold (R151 (a)). -/
theorem prediction_of_unanimous {e : Engine} {pc : Addr} {d : Bool}
    (h : ∀ T ∈ [Tbl.bim, .gb1, .gb2, .pb1, .pb2], vote config
      (e.read config T ((lookup config e pc config.localPhtIdxLen).entry T)) = d) :
    prediction config e pc = d := by
  simp only [List.forall_mem_cons] at h
  obtain ⟨hbim, hgb1, hgb2, hpb1, hpb2, -⟩ := h
  obtain ⟨-, -, -, hfinal⟩ := ofCounters_unanimous (bi := 0) (gi1 := 0) (gi2 := 0) (li := 0)
    (pi1 := 0) (pi2 := 0) (t1i := 0) (t2i := 0) (lh := 0) _ _ hbim hgb1 hgb2 hpb1 hpb2
  exact hfinal

/-- Settles O23: a counter votes taken when it is above 1. -/
theorem unanimousVotesDecide : Obligations.UnanimousVotesDecide := by
  intro s e pc d he hvotes
  have unanimous : prediction config e pc = d := prediction_of_unanimous fun T hT => by
    rw [vote_config, Bool.eq_iff_iff, decide_eq_true_iff]
    exact hvotes T hT
  rw [exec_predict he, unanimous, State.answer]

/-- Settles O14: every counter is 2 after RESET, so the five votes say taken. -/
theorem coldStartPredictsTaken : Obligations.ColdStartPredictsTaken := by
  intro s t pc ht
  rw [exec_reset] at ht
  obtain rfl := Host.Outcome.next.inj ht
  have unanimous : prediction config Engine.reset pc = true := prediction_of_unanimous fun T _ => by
    rw [reset_read, config_init]; rfl
  rw [exec_predict (setEngine_engine s.silent Engine.reset), unanimous, State.answer]

/-- A vote as a number. -/
theorem vote_config_toNat (k : Counter) : (vote config k).toNat = if k.toNat > 1 then 1 else 0 := by
  by_cases h : 1 < k.toNat <;> simp [vote_config, h]

/-- A choice between two bits is the choice between what they say. -/
theorem ite_decide_eq_true_iff {p P Q : Prop} [Decidable p] {a b : Bool} (ha : a = true ↔ P)
    (hb : b = true ↔ Q) : (if decide p = true then a else b) = true ↔ if p then P else Q := by
  by_cases h : p
  · simp [h, ha]
  · simp [h, hb]

/-- Settles O16: the answer is the final prediction, whose parts the record gives one by one. -/
theorem predictAnswersTheSelectedPrediction : Obligations.PredictAnswersTheSelectedPrediction := by
  intro s e pc he r voteAt bim gskew pskew taken
  have vote_entry : ∀ T : Tbl, voteAt T (r.entry T) = (vote config (r.counter T)).toNat := fun T => by
    rw [vote_config_toNat, lookup_counter]
  have hbim : r.bim = true ↔ bim = 1 := by
    rw [show bim = r.bim.toNat from vote_entry .bim, Bool.toNat_eq_one]
  have hgskew : r.gskew = true ↔ 2 ≤ gskew := by
    rw [show gskew = r.vg1.toNat + r.vg2.toNat + r.bim.toNat from
      congrArg₂ _ (congrArg₂ _ (vote_entry .gb1) (vote_entry .gb2)) (vote_entry .bim)]
    exact decide_eq_true_iff
  have hpskew : r.pskew = true ↔ 2 ≤ pskew := by
    rw [show pskew = r.vp1.toNat + r.vp2.toNat + r.bim.toNat from
      congrArg₂ _ (congrArg₂ _ (vote_entry .pb1) (vote_entry .pb2)) (vote_entry .bim)]
    exact decide_eq_true_iff
  have hcomp : r.comp = true ↔ if (e.read config .t1 r.t1i).toNat ≤ 1 then 2 ≤ gskew else bim = 1 :=
    ite_decide_eq_true_iff hgskew hbim
  have hfinal : r.final = true ↔ taken := ite_decide_eq_true_iff hcomp hpskew
  exact ⟨r.final, exec_predict he pc, hfinal⟩

end Sys2Proof.Proofs
end

section
/-! PROOFS. What PREDICT and UPDATE see of the address and of the engine (20_memory.md sections 1
and 4). -/

namespace Sys2Proof.Proofs

open Sys2Proof.Machine

/-! ## The address -/

/-- The lookup sees only the low 15 address bits (20_memory.md R66). -/
theorem lookup_config_congr_pc {pc pc' : Addr} (h : pc.toNat % 2 ^ 15 = pc'.toNat % 2 ^ 15)
    (e : Engine) : lookup config e pc 15 = lookup config e pc' 15 := by
  have hbit : ∀ k < 15, pc.getLsbD k = pc'.getLsbD k := fun k hk => by
    have hmod := congrArg (Nat.testBit · k) h
    simp only [Nat.testBit_mod_two_pow, decide_eq_true hk, Bool.true_and] at hmod
    exact hmod
  have hli : pc.toNat % 2 ^ 12 = pc'.toNat % 2 ^ 12 := by omega
  have ht2 : pc.toNat % 2 ^ 14 = pc'.toNat % 2 ^ 14 := by omega
  refine lookup_congr_pc e 15 h hli ht2 fun r n hist hn => ?_
  obtain rfl : n = 15 := by simpa using hn
  exact skewIndex_congr_pc pc hist 21 15 r fun k hk => hbit k (by omega)

/-- UPDATE depends on the address only through its snapshot. -/
theorem updateEngine_congr_pc {c : Config} {e : Engine} {pc pc' : Addr}
    (h : snapshot c e pc = snapshot c e pc') (rd pd : Bool) :
    updateEngine c e pc rd pd = updateEngine c e pc' rd pd := by
  rw [updateEngine_eq, updateEngine_eq, h]

/-- Settles O24: the lookups are equal, and with them the answer and the trained engine. -/
theorem onlyLowFifteenAddressBitsMatter : Obligations.OnlyLowFifteenAddressBitsMatter := by
  intro pc pc' rd pd tgt s h
  cases he : s.engine with
  | none =>
    rw [exec_predict_none he, exec_predict_none he, exec_update_none he, exec_update_none he]
    exact ⟨rfl, rfl⟩
  | some e =>
    have hlookup := lookup_config_congr_pc h e
    have hprediction : prediction config e pc = prediction config e pc' :=
      congrArg Lookup.final hlookup
    rw [exec_predict he, exec_predict he, exec_update he, exec_update he, hprediction,
      updateEngine_congr_pc hlookup]
    exact ⟨rfl, rfl⟩

/-! ## The engine -/

/-- Where two engines give one snapshot and hold one value, UPDATE leaves one value. -/
theorem update_read_congr {c : Config} {e e' : Engine} {pc : Addr} {T : Tbl} {i : Nat}
    (hr : snapshot c e pc = snapshot c e' pc) (h : e.read c T i = e'.read c T i) (rd pd : Bool) :
    (updateEngine c e pc rd pd).read c T i = (updateEngine c e' pc rd pd).read c T i := by
  cases T
  · rw [update_bim, update_bim, hr, h]
  · rw [update_gb1, update_gb1, hr, h]
  · rw [update_gb2, update_gb2, hr, h]
  · rw [update_pb1, update_pb1, hr, h]
  · rw [update_pb2, update_pb2, hr, h]
  · rw [update_t1, update_t1, hr, h]
  · rw [update_t2, update_t2, hr, h]

/-- Settles O25: engines that agree on GHR and the addressed entries give one lookup, and UPDATE writes
from the lookup alone. -/
theorem onlyAddressedEntriesAreRead : Obligations.OnlyAddressedEntriesAreRead := by
  intro s s' e e' pc rd pd tgt he he' hghr hbht hread
  have hlookup : lookup config e pc 15 = lookup config e' pc 15 := lookup_congr hghr hbht hread
  have hprediction : prediction config e' pc = prediction config e pc :=
    congrArg Lookup.final hlookup.symm
  refine ⟨⟨prediction config e pc, exec_predict he pc, ?answer⟩, updateEngine config e pc rd pd,
    updateEngine config e' pc rd pd, exec_update he pc rd pd tgt, exec_update he' pc rd pd tgt,
    ?ghr, ?bht, fun T => update_read_congr hlookup (hread T) rd pd⟩
  case answer => rw [exec_predict he', hprediction, State.answer]
  case ghr => rw [update_ghr, update_ghr, hghr]
  case bht =>
    have hlocal : e.readBht (localIndex config pc) = e'.readBht (localIndex config pc) := hbht
    rw [update_readBht, update_readBht, hlocal, hbht]

end Sys2Proof.Proofs
end

section
/-! PROOFS. What UPDATE writes, table by table, and what it leaves (43_update.md section 2). -/

namespace Sys2Proof.Proofs

open Sys2Proof.Machine Sys2Proof.Claims

/-! ## An entry written under a condition -/

section Guarded

variable {α : Type} {f g : Nat → α} {j : Nat} {p : Prop} [Decidable p] {v : α}

theorem eq_written_of_guard (h : ∀ i, f i = if i = j ∧ p then v else g i) (hp : p) : f j = v := by
  rw [h, if_pos ⟨rfl, hp⟩]

theorem eq_old_of_not_guard (h : ∀ i, f i = if i = j ∧ p then v else g i) (hp : ¬p) (i : Nat) :
    f i = g i := by
  rw [h, if_neg fun hi => hp hi.2]

end Guarded

/-! ## The tournament tables -/

/-- What steps 1 and 2 make of a tournament entry: one move, toward the first rival when that one was
right, exactly when the two rivals are to be compared (R183, R184). -/
theorem moved_tournament {f g : Nat → Counter} {j : Nat} {k : Counter} {first rd : Bool} {p : Prop}
    [Decidable p] (law : ∀ i, f i = if i = j ∧ p then tournamentMove config k (first == rd) else g i) :
    (¬p → ∀ i, f i = g i) ∧
    (p → first = rd → (f j).toNat = k.toNat - 1) ∧
    (p → first ≠ rd → (f j).toNat = min (k.toNat + 1) 3) := by
  refine ⟨eq_old_of_not_guard law, fun hp h => ?_, fun hp h => ?_⟩
  · rw [eq_written_of_guard law hp, tournamentMove_config, if_pos (beq_iff_eq.mpr h)]
  · rw [eq_written_of_guard law hp, tournamentMove_config, if_neg (mt beq_iff_eq.mp h)]

/-- Settles O27: `T2` is written exactly when the composite and pskew disagree. -/
theorem updateMovesTournament2 : Obligations.UpdateMovesTournament2 := by
  intro s e pc rd pd tgt he r
  obtain ⟨untouched, toFirst, toSecond⟩ := moved_tournament (update_t2 config e pc rd pd)
  exact ⟨_, exec_update he pc rd pd tgt, fun h => untouched (· h), toFirst, toSecond⟩

/-- Settles O28: `T1` is written exactly when the composite was selected and its two rivals disagree. -/
theorem updateMovesTournament1 : Obligations.UpdateMovesTournament1 := by
  intro s e pc rd pd tgt he r moves
  obtain ⟨untouched, toFirst, toSecond⟩ := moved_tournament (update_t1 config e pc rd pd)
  exact ⟨_, exec_update he pc rd pd tgt, untouched, toFirst, toSecond⟩

/-! ## The banks and the bimodal table -/

theorem push_config_toNat (k : Counter) (d : Bool) : (push config k d).toNat = pushed k d :=
  push_config k d

/-- What the rule of R185 and R186 makes of one bank: with the gate closed nothing, with the majority
wrong a push, and with the majority right a push exactly when the bank's own vote was right. -/
theorem trained_bank {f g : Nat → Counter} {j : Nat} {k : Counter} {gate maj own rd : Bool}
    (law : ∀ i, f i = if i = j ∧ (gate && (maj != rd || own == rd)) = true then push config k rd
      else g i) :
    (¬gate = true → ∀ i, f i = g i) ∧
    (gate = true → maj ≠ rd → (f j).toNat = pushed k rd) ∧
    (gate = true → maj = rd → own = rd → (f j).toNat = pushed k rd) ∧
    ((gate = true → maj = rd) → own ≠ rd → ∀ i, f i = g i) := by
  refine ⟨fun hg => eq_old_of_not_guard law (by simp [hg]), fun hg hm => ?_, fun hg hm ho => ?_,
    fun hm ho => eq_old_of_not_guard law (by simpa [ho] using hm)⟩
  · rw [eq_written_of_guard law (by simp [hg, hm]), push_config_toNat]
  · rw [eq_written_of_guard law (by simp [hg, ho]), push_config_toNat]

theorem gskewGate_iff (r : Lookup) (rd pd : Bool) :
    gskewGate r (pd != rd) = true ↔ pd ≠ rd ∨ r.sel2bc = true ∧ r.selg = true := by
  simp [gskewGate]

theorem pskewGate_iff (r : Lookup) (rd pd : Bool) :
    pskewGate r (pd != rd) = true ↔ pd ≠ rd ∨ r.sel2bc = false := by
  simp [pskewGate]

/-- Settles O29: both gskew banks follow the bank rule under the gskew gate. -/
theorem updateTrainsGskewBanks : Obligations.UpdateTrainsGskewBanks := by
  intro s e pc rd pd tgt he r gate
  have hgate : gskewGate r (pd != rd) = true ↔ gate := gskewGate_iff r rd pd
  obtain ⟨closed1, wrong1, right1, dissent1⟩ := trained_bank (update_gb1 config e pc rd pd)
  obtain ⟨closed2, wrong2, right2, dissent2⟩ := trained_bank (update_gb2 config e pc rd pd)
  exact ⟨_, exec_update he pc rd pd tgt,
    fun hg i => ⟨closed1 (mt hgate.mp hg) i, closed2 (mt hgate.mp hg) i⟩,
    fun hg hm => ⟨wrong1 (hgate.mpr hg) hm, wrong2 (hgate.mpr hg) hm⟩,
    fun hg hm => ⟨right1 (hgate.mpr hg) hm, dissent1 fun _ => hm, right2 (hgate.mpr hg) hm,
      dissent2 fun _ => hm⟩⟩

/-- Settles O30: both pskew banks follow the bank rule under the pskew gate. -/
theorem updateTrainsPskewBanks : Obligations.UpdateTrainsPskewBanks := by
  intro s e pc rd pd tgt he r gate
  have hgate : pskewGate r (pd != rd) = true ↔ gate := pskewGate_iff r rd pd
  obtain ⟨closed1, wrong1, right1, dissent1⟩ := trained_bank (update_pb1 config e pc rd pd)
  obtain ⟨closed2, wrong2, right2, dissent2⟩ := trained_bank (update_pb2 config e pc rd pd)
  exact ⟨_, exec_update he pc rd pd tgt,
    fun hg i => ⟨closed1 (mt hgate.mp hg) i, closed2 (mt hgate.mp hg) i⟩,
    fun hg hm => ⟨wrong1 (hgate.mpr hg) hm, wrong2 (hgate.mpr hg) hm⟩,
    fun hg hm => ⟨right1 (hgate.mpr hg) hm, dissent1 fun _ => hm, right2 (hgate.mpr hg) hm,
      dissent2 fun _ => hm⟩⟩

/-- Settles O31: the bimodal table follows the bank rule with its gate open and the carried prediction in
the majority's place. -/
theorem updateTrainsBimodal : Obligations.UpdateTrainsBimodal := by
  intro s e pc rd pd tgt he r
  obtain ⟨-, wrong, right, dissent⟩ := trained_bank (gate := true) (update_bim config e pc rd pd)
  exact ⟨_, exec_update he pc rd pd tgt, wrong rfl, right rfl, fun hp => dissent fun _ => hp⟩

/-! ## The histories and the frame -/

/-- Settles O32: `SHIFT_IN` as a number, at GHR and at the address's BHT entry. -/
theorem updateShiftsBothHistories : Obligations.UpdateShiftsBothHistories := by
  intro s e pc rd pd tgt he li
  refine ⟨_, exec_update he pc rd pd tgt, ?ghr, ?bht, fun i hi => ?other⟩
  case ghr => rw [update_ghr, shiftIn_toNat]
  case bht =>
    rw [← shiftIn_toNat]
    exact congrArg BitVec.toNat ((update_readBht config e pc rd pd li).trans (if_pos rfl))
  case other => exact (update_readBht config e pc rd pd i).trans (if_neg hi)

/-- Settles O34: the frame lemma of the counter tables and the law of the BHT. -/
theorem updateLeavesOtherEntries : Obligations.UpdateLeavesOtherEntries := by
  intro s e pc rd pd tgt he r
  exact ⟨_, exec_update he pc rd pd tgt, fun T i hi => update_read_other config e pc rd pd hi,
    fun i hi => (update_readBht config e pc rd pd i).trans (if_neg hi)⟩

/-- A right final prediction that came from gskew makes the gskew majority right. -/
theorem gskew_eq_of_final {c : Config} {e : Engine} {pc : Addr} {L : Nat} {rd : Bool}
    (hfinal : (lookup c e pc L).final = rd) (h : (lookup c e pc L).sel2bc = true)
    (h' : (lookup c e pc L).selg = true) : (lookup c e pc L).gskew = rd := by
  rwa [lookup_final, if_pos h, lookup_comp, if_pos h'] at hfinal

/-- A right final prediction that came from pskew makes the pskew majority right. -/
theorem pskew_eq_of_final {c : Config} {e : Engine} {pc : Addr} {L : Nat} {rd : Bool}
    (hfinal : (lookup c e pc L).final = rd) (h : (lookup c e pc L).sel2bc = false) :
    (lookup c e pc L).pskew = rd := by
  rwa [lookup_final, if_neg (by simp [h])] at hfinal

/-- Settles O46: with a right prediction an open gate means a right majority, and a bank whose vote was
wrong then keeps its counter, as the bimodal table does. -/
theorem rightPredictionLeavesDissentersAlone : Obligations.RightPredictionLeavesDissentersAlone := by
  intro s e pc rd tgt he r hfinal
  refine ⟨_, exec_update he pc rd r.final tgt, fun T hT hvote => ?_⟩
  have dissents : vote config (r.counter T) ≠ rd := by
    rw [lookup_counter, vote_config, ne_eq, Bool.eq_iff_iff, decide_eq_true_iff]
    exact hvote
  have gskew_rule : gskewGate r (r.final != rd) = true → r.gskew = rd := fun h => by
    rcases (gskewGate_iff r rd r.final).mp h with hw | ⟨h2, h1⟩
    · exact absurd hfinal hw
    · exact gskew_eq_of_final hfinal h2 h1
  have pskew_rule : pskewGate r (r.final != rd) = true → r.pskew = rd := fun h => by
    rcases (pskewGate_iff r rd r.final).mp h with hw | h2
    · exact absurd hfinal hw
    · exact pskew_eq_of_final hfinal h2
  simp only [List.mem_cons, List.not_mem_nil, or_false] at hT
  rcases hT with rfl | rfl | rfl | rfl | rfl
  · obtain ⟨-, -, -, kept⟩ := trained_bank (gate := true) (update_bim config e pc rd r.final)
    exact kept (fun _ => hfinal) dissents
  · obtain ⟨-, -, -, kept⟩ := trained_bank (update_gb1 config e pc rd r.final)
    exact kept gskew_rule dissents
  · obtain ⟨-, -, -, kept⟩ := trained_bank (update_gb2 config e pc rd r.final)
    exact kept gskew_rule dissents
  · obtain ⟨-, -, -, kept⟩ := trained_bank (update_pb1 config e pc rd r.final)
    exact kept pskew_rule dissents
  · obtain ⟨-, -, -, kept⟩ := trained_bank (update_pb2 config e pc rd r.final)
    exact kept pskew_rule dissents

end Sys2Proof.Proofs
end

section
/-! PROOFS. The seven steps of UPDATE commute, because each writes elements of its own
(43_update.md R190). -/

namespace Sys2Proof.Proofs

open Sys2Proof.Machine Sys2Proof.Claims

/-- The nine state elements (10_state.md R20). -/
inductive Element where
  | counters (T : Tbl)
  | bht
  | ghr

/-- What the steps of UPDATE are made of: a map that writes one element, given the snapshot. -/
inductive WritesOne (c : Config) (r : Lookup) (rd : Bool) : Element → (Engine → Engine) → Prop
  | counters (T : Tbl) (i : Nat) (v : Counter) (go : Bool) :
    WritesOne c r rd (.counters T) (guardedWrite c T i v go)
  | ghr : WritesOne c r rd .ghr (updateGhr rd)
  | bht : WritesOne c r rd .bht (updateBht r rd)

/-- A map composed of such maps, with the elements they write. -/
inductive Writes (c : Config) (r : Lookup) (rd : Bool) : List Element → (Engine → Engine) → Prop
  | one {x : Element} {f : Engine → Engine} : WritesOne c r rd x f → Writes c r rd [x] f
  | comp {xs ys : List Element} {f g : Engine → Engine} :
    Writes c r rd xs f → Writes c r rd ys g → Writes c r rd (xs ++ ys) (f ∘ g)

/-- No element is written by both. -/
abbrev Apart (xs ys : List Element) : Prop := ∀ x ∈ xs, x ∉ ys

section Commute

variable {c : Config} {r : Lookup} {rd : Bool} {x y : Element} {xs ys : List Element}
  {f g : Engine → Engine}

theorem writesOne_commute (hf : WritesOne c r rd x f) (hg : WritesOne c r rd y g) (h : x ≠ y) :
    Function.Commute f g := by
  cases hf with
  | counters T i v go =>
    cases hg with
    | counters U j v' go' =>
      exact fun e => guardedWrite_comm c e (fun hT => h (congrArg _ hT)) i j v v' go go'
    | ghr => exact fun e => guardedWrite_updateGhr c rd e T i v go
    | bht => exact fun e => guardedWrite_updateBht c r rd e T i v go
  | ghr =>
    cases hg with
    | counters U j v' go' => exact fun e => (guardedWrite_updateGhr c rd e U j v' go').symm
    | ghr => exact absurd rfl h
    | bht => exact fun _ => rfl
  | bht =>
    cases hg with
    | counters U j v' go' => exact fun e => (guardedWrite_updateBht c r rd e U j v' go').symm
    | ghr => exact fun _ => rfl
    | bht => exact absurd rfl h

theorem writesOne_commute_writes (hf : WritesOne c r rd x f) (hg : Writes c r rd ys g) (h : x ∉ ys) :
    Function.Commute f g := by
  induction hg with
  | one hg => exact writesOne_commute hf hg (by simpa using h)
  | comp _ _ ihf ihg =>
    rw [List.mem_append, not_or] at h
    exact (ihf h.1).comp_right (ihg h.2)

/-- Maps that write different elements commute. -/
theorem writes_commute (hf : Writes c r rd xs f) (hg : Writes c r rd ys g) (h : Apart xs ys) :
    Function.Commute f g := by
  induction hf with
  | one hf => exact writesOne_commute_writes hf hg (h _ List.mem_cons_self)
  | comp _ _ ihf ihg =>
    rw [Apart, List.forall_mem_append] at h
    exact (ihf h.1).comp_left (ihg h.2)

end Commute

/-- The seven steps, each with the elements it writes (43_update.md R183 to R189). -/
def footprintedSteps (c : Config) (r : Lookup) (rd wrong : Bool) :
    List (List Element × (Engine → Engine)) :=
  [([.counters .t2], updateT2 c r rd), ([.counters .t1], updateT1 c r rd),
    ([.counters .gb2, .counters .gb1], updateGskew c r rd wrong),
    ([.counters .pb2, .counters .pb1], updatePskew c r rd wrong),
    ([.counters .bim], updateBimodal c r rd wrong), ([.ghr], updateGhr rd), ([.bht], updateBht r rd)]

section Steps

variable (c : Config) (r : Lookup) (rd wrong : Bool)

theorem footprintedSteps_steps :
    (footprintedSteps c r rd wrong).map Prod.snd = updateSteps c r rd wrong := rfl

theorem footprintedSteps_apart :
    (footprintedSteps c r rd wrong).Pairwise fun p q => Apart p.1 q.1 := by
  simp [footprintedSteps, Apart]

theorem updateT2_writes : Writes c r rd [.counters .t2] (updateT2 c r rd) :=
  .one (.counters .t2 _ _ _)

theorem updateT1_writes : Writes c r rd [.counters .t1] (updateT1 c r rd) :=
  .one (.counters .t1 _ _ _)

theorem updateGskew_writes :
    Writes c r rd [.counters .gb2, .counters .gb1] (updateGskew c r rd wrong) := by
  rw [show updateGskew c r rd wrong = _ from funext (updateGskew_eq c r rd wrong)]
  exact (Writes.one (.counters .gb2 _ _ _)).comp (.one (.counters .gb1 _ _ _))

theorem updatePskew_writes :
    Writes c r rd [.counters .pb2, .counters .pb1] (updatePskew c r rd wrong) := by
  rw [show updatePskew c r rd wrong = _ from funext (updatePskew_eq c r rd wrong)]
  exact (Writes.one (.counters .pb2 _ _ _)).comp (.one (.counters .pb1 _ _ _))

theorem updateBimodal_writes : Writes c r rd [.counters .bim] (updateBimodal c r rd wrong) :=
  .one (.counters .bim _ _ _)

/-- Each step writes the elements listed with it. -/
theorem footprintedSteps_write : ∀ p ∈ footprintedSteps c r rd wrong, Writes c r rd p.1 p.2 := by
  simp only [footprintedSteps, List.forall_mem_cons]
  exact ⟨updateT2_writes c r rd, updateT1_writes c r rd, updateGskew_writes c r rd wrong,
    updatePskew_writes c r rd wrong, updateBimodal_writes c r rd wrong, .one .ghr, .one .bht,
    fun _ h => nomatch h⟩

/-- Any two of the seven steps commute, a step and itself included. -/
theorem updateSteps_commute :
    ∀ f ∈ updateSteps c r rd wrong, ∀ g ∈ updateSteps c r rd wrong, Function.Commute f g := by
  have hpair : (updateSteps c r rd wrong).Pairwise Function.Commute := by
    rw [← footprintedSteps_steps, List.pairwise_map]
    exact (footprintedSteps_apart c r rd wrong).imp_of_mem fun hp hq =>
      writes_commute (footprintedSteps_write c r rd wrong _ hp)
        (footprintedSteps_write c r rd wrong _ hq)
  have : Std.Symm (Function.Commute (α := Engine)) := ⟨fun _ _ => Function.Commute.symm⟩
  exact hpair.forall_of_forall fun {f} _ => Function.Commute.refl f

end Steps

/-- Settles O35: the steps commute, so every order gives the engine that BP's order gives. -/
theorem updateStepsCommute : Obligations.UpdateStepsCommute := by
  intro c e pc rd pd steps hperm
  have hcommute := updateSteps_commute c (lookup c e pc c.phtIdxLen) rd (pd != rd)
  calc steps.foldl (fun x f => f x) e
      = (updateSteps c (lookup c e pc c.phtIdxLen) rd (pd != rd)).foldl (fun x f => f x) e :=
        (hperm.symm.foldl_eq' (fun f hf g hg x => hcommute g hg f hf x) e).symm
    _ = updateEngine c e pc rd pd := rfl

end Sys2Proof.Proofs
end

section
/-! PROOFS. What the histories hold after any commands without RESET, and that the skewed indices see no
history bit above the 21st (10_state.md section 3; 43_update.md R197; 90_conflicts.md C1). -/

namespace Sys2Proof.Proofs

open Sys2Proof.Machine Sys2Proof.Claims

/-- Bit `k` after shifting outcomes in is the `k`-th most recent of them, or past the oldest what the
history held (R115). -/
theorem getLsbD_foldl_shiftIn {w : Nat} (h : BitVec w) (ds : List Bool) {k : Nat} (hk : k < w) :
    (ds.foldl shiftIn h).getLsbD k = (ds.reverse[k]?).getD (h.getLsbD (k - ds.length)) := by
  induction ds using List.reverseRecOn generalizing k with
  | nil => simp
  | append_singleton ds d ih =>
    rw [List.foldl_concat, getLsbD_shiftIn, decide_eq_true hk, Bool.true_and, List.reverse_concat,
      List.length_append, List.length_singleton]
    cases k with
    | zero => simp
    | succ k =>
      rw [if_neg (Nat.succ_ne_zero k), Nat.add_sub_cancel, Nat.add_sub_add_right,
        List.getElem?_cons_succ]
      exact ih (by omega)

/-- Settles O45: below the 21st bit both registers hold the same outcomes and, past them, the same old
bits. -/
theorem historyBitsAboveTwentyOneNeverMatter : Obligations.HistoryBitsAboveTwentyOneNeverMatter := by
  intro w wide ds r pc idxLen hw
  refine skewIndex_congr_hist pc _ 21 idxLen r fun k hk => ?_
  have hold : k - ds.length < 21 := by omega
  rw [getLsbD_foldl_shiftIn _ _ (by omega), getLsbD_foldl_shiftIn _ _ hk, BitVec.getLsbD_setWidth,
    decide_eq_true hold, Bool.true_and]

/-! ## Runs without RESET -/

/-- The directions of the UPDATEs whose address maps to BHT entry `j` (10_state.md R29). -/
def outcomesAt (j : Nat) (cmds : List Instr) : List Bool :=
  outcomes (fun pc => decide (pc.toNat % 2 ^ 12 = j)) cmds

/-- What commands without RESET leave in the histories: the outcomes shifted in, oldest first. -/
def HistoriesAfter (cmds : List Instr) (e f : Engine) : Prop :=
  f.ghr = (outcomes (fun _ => true) cmds).foldl shiftIn e.ghr ∧
    ∀ j, f.readBht j = (outcomesAt j cmds).foldl shiftIn (e.readBht j)

/-- One command but RESET completes, and shifts its outcome in when it is an UPDATE. -/
theorem exec_histories {s : State} {e : Engine} (he : s.engine = some e) {i : Instr} (hi : i ≠ .reset) :
    ∃ t f, exec i s = .next t ∧ t.engine = some f ∧ HistoriesAfter [i] e f := by
  cases i with
  | track pc cls tgt => exact ⟨_, e, exec_track pc cls tgt s, he, rfl, fun _ => rfl⟩
  | predict pc => exact ⟨_, e, exec_predict he pc, he, rfl, fun _ => rfl⟩
  | update pc rd pd tgt =>
    refine ⟨_, _, exec_update he pc rd pd tgt, rfl, update_ghr config e pc rd pd, fun j => ?_⟩
    have hlocal : localIndex config pc = pc.toNat % 2 ^ 12 := rfl
    rw [update_readBht, hlocal, outcomesAt, outcomes]
    by_cases hj : j = pc.toNat % 2 ^ 12
    · subst hj
      rw [if_pos rfl, if_pos (decide_eq_true rfl)]
      rfl
    · rw [if_neg hj, if_neg fun h => hj (of_decide_eq_true h).symm]
      rfl
  | reset => exact absurd rfl hi

theorem outcomes_cons (p : Addr → Bool) (i : Instr) (rest : List Instr) :
    outcomes p (i :: rest) = outcomes p [i] ++ outcomes p rest := by
  cases i with
  | update pc rd pd tgt => cases h : p pc <;> simp [outcomes, h]
  | track _ _ _ => rfl
  | predict _ => rfl
  | reset => rfl

theorem historiesAfter_cons {i : Instr} {rest : List Instr} {e f g : Engine}
    (h : HistoriesAfter [i] e f) (hrest : HistoriesAfter rest f g) : HistoriesAfter (i :: rest) e g := by
  obtain ⟨hghr, hbht⟩ := h
  obtain ⟨hghr', hbht'⟩ := hrest
  refine ⟨?_, fun j => ?_⟩
  · rw [hghr', hghr, outcomes_cons _ i rest, List.foldl_append]
  · rw [hbht', hbht, outcomesAt, outcomesAt, outcomesAt, outcomes_cons _ i rest, List.foldl_append]

/-- The same of any commands without RESET, by induction on the list. -/
theorem execAll_histories (cmds : List Instr) {s : State} {e : Engine} (he : s.engine = some e)
    (hcmds : Instr.reset ∉ cmds) :
    ∃ t f, execAll cmds s = .next t ∧ t.engine = some f ∧ HistoriesAfter cmds e f := by
  induction cmds generalizing s e with
  | nil => exact ⟨s, e, execAll_nil s, he, rfl, fun _ => rfl⟩
  | cons i rest ih =>
    rw [List.mem_cons, not_or] at hcmds
    obtain ⟨hi, hrest⟩ := hcmds
    obtain ⟨u, f, hu, huf, hone⟩ := exec_histories he (Ne.symm hi)
    obtain ⟨t, g, ht, htg, hmore⟩ := ih huf hrest
    exact ⟨t, g, by rw [execAll_cons, hu, andThen_next, ht], htg, historiesAfter_cons hone hmore⟩

/-- Settles O43: the bits of the outcomes shifted into GHR. -/
theorem ghrHoldsTheRecentOutcomes : Obligations.GhrHoldsTheRecentOutcomes := by
  intro cmds s e he hcmds past
  obtain ⟨t, f, ht, htf, hghr, -⟩ := execAll_histories cmds he hcmds
  refine ⟨t, f, ht, htf, fun k hk => ?_⟩
  rw [hghr, getLsbD_foldl_shiftIn _ _ hk, List.length_reverse]

/-- Settles O44: the bits of the outcomes shifted into one BHT entry. -/
theorem bhtHoldsTheRecentOutcomesOfItsAddresses :
    Obligations.BhtHoldsTheRecentOutcomesOfItsAddresses := by
  intro cmds s e he hcmds
  obtain ⟨t, f, ht, htf, -, hbht⟩ := execAll_histories cmds he hcmds
  refine ⟨t, f, ht, htf, fun j k hk => ?_⟩
  intro past
  rw [hbht, getLsbD_foldl_shiftIn _ _ hk, List.length_reverse, outcomesAt]

end Sys2Proof.Proofs
end

section
/-! PROOFS. The sequencing contract and its monitor (70_reset_and_hazards.md R245 to R248). -/

namespace Sys2Proof.Proofs

open Sys2Proof.Machine Sys2Proof.Safety

variable {m m' : Pending} {i : Instr} {s t : State}

/-- A PREDICT the contract allows is owed its UPDATE with the answer just given. -/
theorem watch_predict_eq_some {pc : Addr} {b : Bool} (h : watch m (.predict pc) (some b) = some m') :
    m' = .asked pc b := by
  cases m with
  | idle => exact (Option.some.inj h).symm
  | asked q d =>
    simp only [watch] at h
    split at h
    · exact (Option.some.inj h).symm
    · cases h

/-- An UPDATE the contract allows pays the PREDICT it carries the answer of. -/
theorem watch_update_eq_some {pc : Addr} {rd pd : Bool} {tgt : Addr} {answer : Option Bool}
    (h : watch m (.update pc rd pd tgt) answer = some m') : m = .asked pc pd ∧ m' = .idle := by
  cases m with
  | idle => cases h
  | asked q d =>
    simp only [watch] at h
    split at h
    next hqd =>
      obtain ⟨rfl, rfl⟩ := hqd
      exact ⟨rfl, (Option.some.inj h).symm⟩
    · cases h

/-- What the monitor holds depends on the engine alone. -/
theorem agrees_of_engine_eq (h : t.engine = s.engine) (hs : Agrees m s) : Agrees m t := by
  cases m with
  | idle => trivial
  | asked pc d =>
    obtain ⟨e, he, hd⟩ := hs
    exact ⟨e, h.trans he, hd⟩

/-- Settles O47: TRACK keeps the engine, a PREDICT is remembered with the answer it gave, and after UPDATE
and RESET nothing is owed. -/
theorem monitorAgreesWithTheEngine : Obligations.MonitorAgreesWithTheEngine := by
  intro m m' i s t hs hexec hwatch
  rcases exec_cases hexec with ⟨_, _, _, rfl, rfl⟩ | ⟨pc, e, rfl, he, rfl⟩ | ⟨_, _, _, _, _, rfl, -, rfl⟩ |
    ⟨rfl, rfl⟩
  · obtain rfl : m = m' := Option.some.inj hwatch
    exact agrees_of_engine_eq rfl hs
  · obtain rfl := watch_predict_eq_some hwatch
    exact ⟨e, he, rfl⟩
  · obtain ⟨-, rfl⟩ := watch_update_eq_some hwatch
    trivial
  · obtain rfl : Pending.idle = m' := Option.some.inj hwatch
    trivial

/-- A stream keeps the contract when its first command completes and is allowed, and the rest keeps it. -/
theorem keepsContract_cons_iff {rest : List Instr} :
    keepsContract m (i :: rest) s = true ↔
      ∃ t m', exec i s = .next t ∧ watch m i t.resp = some m' ∧ keepsContract m' rest t = true := by
  simp only [keepsContract]
  cases hexec : exec i s with
  | fault r => exact nomatch r
  | refused r => simp
  | next t => cases hwatch : watch m i t.resp <;> simp [hwatch]

/-- The monitor agrees with the engine all along a stream that keeps the contract. -/
theorem agrees_after_run (before : List Instr) {after : List Instr} (hs : Agrees m s)
    (h : keepsContract m (before ++ after) s = true) :
    ∃ u m', execAll before s = .next u ∧ Agrees m' u ∧ keepsContract m' after u = true := by
  induction before generalizing m s with
  | nil => exact ⟨s, m, execAll_nil s, hs, h⟩
  | cons i rest ih =>
    obtain ⟨t, m', hexec, hwatch, hrest⟩ := keepsContract_cons_iff.mp h
    have hagrees := monitorAgreesWithTheEngine m m' i s t hs hexec hwatch
    obtain ⟨u, m'', hu, hagrees', hafter⟩ := ih hagrees hrest
    exact ⟨u, m'', by rw [execAll_cons, hexec, andThen_next, hu], hagrees', hafter⟩

/-- Settles O48: the UPDATE is allowed only when the monitor holds its address and its `pd`, and what the
monitor holds is the engine's prediction. -/
theorem contractUpdatesCarryTheFinalPrediction : Obligations.ContractUpdatesCarryTheFinalPrediction := by
  intro before after pc rd pd tgt s h
  obtain ⟨u, m, hu, hagrees, hafter⟩ := agrees_after_run before (m := .idle) trivial h
  obtain ⟨t, m', -, hwatch, -⟩ := keepsContract_cons_iff.mp hafter
  obtain ⟨rfl, -⟩ := watch_update_eq_some hwatch
  obtain ⟨e, he, hpd⟩ := hagrees
  exact ⟨u, e, hu, he, hpd.symm⟩

end Sys2Proof.Proofs
end

section
/-! PROOFS. BRANCH, and the convergence of repeated BRANCHes of one address in one direction
(30_encoding.md R93; 43_update.md R196). -/

namespace Sys2Proof.Proofs

open Sys2Proof.Machine

/-- Settles O42: PREDICT answers the engine's prediction, and the UPDATE after it carries that. -/
theorem branchIsUpdateWithTheAnswer : Obligations.BranchIsUpdateWithTheAnswer := by
  intro s e pc rd tgt he
  have hbranch := exec_branch he pc rd tgt
  exact ⟨prediction config e pc, exec_predict he pc,
    hbranch.trans (exec_update he pc rd (prediction config e pc) tgt).symm, _, hbranch⟩

/-! ## Once the histories are full -/

/-- A choice that gave the direction gives it again: its tournament counter moves only toward the rival
that was right, and a rival that was right stays right (R183, R184). -/
theorem choice_stays_right {k k' : Counter} {go first second first' second' d : Bool}
    (hmove : k' = if go then tournamentMove config k (first == d) else k)
    (hgo : go = true → first ≠ second) (hfirst : first = d → first' = d)
    (hsecond : second = d → second' = d) (h : (if selectsFirst config k then first else second) = d) :
    (if selectsFirst config k' then first' else second') = d := by
  subst hmove
  cases hk : selectsFirst config k with
  | true =>
    obtain rfl : first = d := by simpa [hk] using h
    have kept : selectsFirst config (if go then tournamentMove config k (first == first) else k)
        = true := by
      cases go
      · exact hk
      · rw [beq_self_eq_true]; exact selectsFirst_move_first hk
    rw [if_pos kept]
    exact hfirst rfl
  | false =>
    obtain rfl : second = d := by simpa [hk] using h
    have kept : selectsFirst config (if go then tournamentMove config k (first == second) else k)
        = false := by
      cases go
      · exact hk
      · rw [beq_false_of_ne (hgo rfl)]; exact selectsFirst_move_second hk
    rw [kept]
    exact hsecond rfl

/-- A counter pushed twice running votes for the direction. -/
theorem vote_of_pushed_twice {k k' k'' : Counter} {go go' d : Bool}
    (h : k' = if go then push config k d else k) (h' : k'' = if go' then push config k' d else k')
    (hgo : go = true) (hgo' : go' = true) : vote config k'' = d := by
  subst h h' hgo hgo'
  exact vote_push_push k d

/-- Two bank updates running with the gate open leave a right majority: if it was wrong both times, both
banks were pushed twice (R185, R186, R196 (iii)). -/
theorem majority_of_trained_twice {k₁ k₁' k₁'' k₂ k₂' k₂'' : Counter}
    {gate gate' maj maj' maj'' own₁ own₁' own₂ own₂' third d : Bool}
    (h₁ : k₁' = if gate && (maj != d || own₁ == d) then push config k₁ d else k₁)
    (h₁' : k₁'' = if gate' && (maj' != d || own₁' == d) then push config k₁' d else k₁')
    (h₂ : k₂' = if gate && (maj != d || own₂ == d) then push config k₂ d else k₂)
    (h₂' : k₂'' = if gate' && (maj' != d || own₂' == d) then push config k₂' d else k₂')
    (hgate : gate = true) (hgate' : gate' = true) (hstay : maj = d → maj' = d)
    (hstay' : maj' = d → maj'' = d)
    (hmaj : maj'' = maj3 (vote config k₁'') (vote config k₂'') third) : maj'' = d := by
  by_cases right : maj' = d
  · exact hstay' right
  · have wrong : maj ≠ d := mt hstay right
    have go : ∀ own : Bool, (gate && (maj != d || own == d)) = true := by simp [hgate, wrong]
    have go' : ∀ own : Bool, (gate' && (maj' != d || own == d)) = true := by simp [hgate', right]
    rw [hmaj, vote_of_pushed_twice h₁ h₁' (go _) (go' _), vote_of_pushed_twice h₂ h₂' (go _) (go' _),
      maj3_same_left]

variable {pc : Addr} {d : Bool} {e : Engine}

theorem settled_comp (he : Settled pc d e) (h : (snapshot config e pc).comp = d) :
    (snapshot config (afterBranch pc d e) pc).comp = d := by
  obtain ⟨hbim, hgskew, -⟩ := settled_votes he
  exact choice_stays_right (settled_trained he).ct1
    (fun hgo => bne_iff_ne.mp (Bool.and_eq_true_iff.mp hgo).2) hgskew hbim h

/-- A right prediction stays right. -/
theorem settled_prediction (he : Settled pc d e) (h : prediction config e pc = d) :
    prediction config (afterBranch pc d e) pc = d := by
  obtain ⟨-, -, hpskew⟩ := settled_votes he
  exact choice_stays_right (settled_trained he).ct2 bne_iff_ne.mp (settled_comp he) hpskew h

/-- After two wrong predictions running, the bimodal vote and both majorities are the direction, because
their counters were pushed twice or they were right before (R196 (iii)). -/
theorem settled_prediction_after_two (he : Settled pc d e) (h0 : prediction config e pc ≠ d)
    (h1 : prediction config (afterBranch pc d e) pc ≠ d) :
    prediction config (afterBranch pc d (afterBranch pc d e)) pc = d := by
  have he' := settled_step he
  have train0 := settled_trained he
  have train1 := settled_trained he'
  obtain ⟨-, gskew0, pskew0⟩ := settled_votes he
  obtain ⟨-, gskew1, pskew1⟩ := settled_votes he'
  have wrong0 : ((snapshot config e pc).final != d) = true := bne_iff_ne.mpr h0
  have wrong1 : ((snapshot config (afterBranch pc d e) pc).final != d) = true := bne_iff_ne.mpr h1
  have hbim : (snapshot config (afterBranch pc d (afterBranch pc d e)) pc).bim = d :=
    vote_of_pushed_twice train0.cb train1.cb (by simp [wrong0]) (by simp [wrong1])
  have ggate0 := (gskewGate_iff (snapshot config e pc) d _).mpr (.inl h0)
  have ggate1 := (gskewGate_iff (snapshot config (afterBranch pc d e) pc) d _).mpr (.inl h1)
  have pgate0 := (pskewGate_iff (snapshot config e pc) d _).mpr (.inl h0)
  have pgate1 := (pskewGate_iff (snapshot config (afterBranch pc d e) pc) d _).mpr (.inl h1)
  have hgskew := majority_of_trained_twice train0.cg1 train1.cg1 train0.cg2 train1.cg2 ggate0 ggate1
    gskew0 gskew1 (lookup_gskew config _ pc _)
  have hpskew := majority_of_trained_twice train0.cp1 train1.cp1 train0.cp2 train1.cp2 pgate0 pgate1
    pskew0 pskew1 (lookup_pskew config _ pc _)
  unfold snapshot at hbim hgskew hpskew
  rw [prediction, lookup_config, lookup_final, lookup_comp, hbim, hgskew, hpskew, ite_self, ite_self]

/-- So two BRANCHes after the histories are full the prediction is right, and stays right. -/
theorem settled_prediction_of_two_le (he : Settled pc d e) (m : Nat) :
    Settled pc d ((afterBranch pc d)^[m + 2] e) ∧
      prediction config ((afterBranch pc d)^[m + 2] e) pc = d := by
  have h1 := settled_step he
  have h2 := settled_step h1
  induction m with
  | zero =>
    refine ⟨h2, ?_⟩
    by_contra hwrong
    have hfirst : prediction config (afterBranch pc d e) pc ≠ d := fun h =>
      hwrong (settled_prediction h1 h)
    have hstart : prediction config e pc ≠ d := fun h => hfirst (settled_prediction he h)
    exact hwrong (settled_prediction_after_two he hstart hfirst)
  | succ m ih =>
    rw [Nat.add_right_comm, Function.iterate_succ_apply']
    exact ⟨settled_step ih.1, settled_prediction ih.1 ih.2⟩

/-- Settles O49: 21 BRANCHes fill the histories and two more make the prediction right. -/
theorem repeatedBranchConverges : Obligations.RepeatedBranchConverges := by
  intro s pc d tgt n hs hn
  obtain ⟨e, he⟩ := Option.isSome_iff_exists.mp hs
  obtain ⟨m, rfl⟩ := Nat.exists_eq_add_of_le hn
  obtain ⟨t, ht, hte⟩ := exec_branches pc d tgt (23 + m) he
  have hright : prediction config ((afterBranch pc d)^[23 + m] e) pc = d := by
    rw [show 23 + m = m + 2 + 21 by omega, Function.iterate_add_apply]
    exact (settled_prediction_of_two_le (settled_after pc d e le_rfl) m).2
  exact ⟨t, ht, by rw [exec_predict hte, hright, State.answer]⟩

end Sys2Proof.Proofs
end
